-- ==== Sys2Proof/Word.lean ====
section
/-!
DEFINITION. The widths the spec gives its values (00_scope.md R8, R10, R12): bit 0 is the least significant bit, and
`++` is the spec's concatenation with the left operand most significant.
-/

namespace Sys2Proof

/-- An 8-bit value: an opcode, a tag, a byte operand, a text byte. -/
abbrev Byte := BitVec 8

/-- A 16-bit operand lane (30_encoding.md R62). -/
abbrev Half := BitVec 16

/-- A 32-bit payload or operand (00_scope.md R8, `PAYLOAD_BITS`). -/
abbrev Payload := BitVec 32

/-- A command word `cmd_word[39:0]` (00_scope.md R10, `CMD_BITS`; 30_encoding.md R60). -/
abbrev CmdWord := BitVec 40

/-- The 49 data bits of a codeword, the frame latch's width (10_state.md R29). -/
abbrev Frame := BitVec 49

/-- The 50-bit codeword (00_scope.md R8, `CW_BITS`; 30_encoding.md R57). -/
abbrev Codeword := BitVec 50

end Sys2Proof
end

