-- ==== Sys2Proof/Syntax.lean ====
section
/-!
DEFINITION. The commands: one constructor per mnemonic of spec/opcode_table.json (30_encoding.md R61; 44_config_commands.md
R132: the six sends, the three configuration commands and `RESERVED`, and no others). The operands are the fields of R62
and R63, at their widths.
-/

namespace Sys2Proof

/-- A command of the block. The table's eleven `RESERVED` rows are the ranges of one command, whose decoded form R68
writes `RESERVED(op)`: they differ in the opcode alone, and the opcode is the constructor's argument. -/
inductive Instr where
  /-- `SEND_B00 F`: a binary32 bit pattern, tag 0 (R76). -/
  | sendB00 (f : Payload)
  /-- `SEND_B01 S`: a signed 32-bit integer as its two's-complement pattern, tag 1 (R77). -/
  | sendB01 (s : Payload)
  /-- `SEND_B02 U`: an unsigned 32-bit integer, tag 2 (R78). -/
  | sendB02 (u : Payload)
  /-- `SEND_B03 A, B`: two signed 16-bit integers as their two's-complement patterns, tag 3 (R79). -/
  | sendB03 (a b : Half)
  /-- `SEND_B04 A, B`: two unsigned 16-bit integers, tag 4 (R80). -/
  | sendB04 (a b : Half)
  /-- `SEND_B05 A, B, C, D`: four unsigned bytes, tag 5 (R81). -/
  | sendB05 (a b c d : Byte)
  /-- `SET_LINE L` (R128). -/
  | setLine (l : Byte)
  /-- `SET_ADDRESS H, C`, both operands 8 bits wide, as presented (R129, R63). -/
  | setAddress (h c : Byte)
  /-- `SET_REPEAT N` (R130). -/
  | setRepeat (n : Byte)
  /-- `RESERVED`, an opcode in 0x06-0x7F or 0x83-0xFF (R131). -/
  | reserved (op : Byte)
  deriving DecidableEq, Repr

end Sys2Proof
end

