-- ==== Sys2Proof/WellFormed.lean ====
section
/-!
DEFINITION. Which terms of `Instr` are commands the encoding has. Every operand field has exactly its type's width
(30_encoding.md R62, R63), so the one thing to check is that `RESERVED` carries a reserved opcode (R65).
-/

namespace Sys2Proof

/-- The reserved opcodes: `0x06`-`0x7F` and `0x83`-`0xFF`, 247 values (R65). -/
def reservedOpcode (op : Byte) : Bool :=
  (0x06 ≤ op.toNat && op.toNat ≤ 0x7F) || 0x83 ≤ op.toNat

/-- A command that some 40-bit word encodes. -/
def Instr.wellFormed : Instr → Bool
  | .reserved op => reservedOpcode op
  | .sendB00 _ | .sendB01 _ | .sendB02 _ | .sendB03 _ _ | .sendB04 _ _ | .sendB05 _ _ _ _
  | .setLine _ | .setAddress _ _ | .setRepeat _ => true

end Sys2Proof
end

