-- ==== Sys2Proof/Decode.lean ====
section
/-!
DEFINITION. Decoding and encoding the 40-bit command word (30_encoding.md R60-R68). The decoder is total: every word is
a command, and no word is illegal (R65, R68).
-/

namespace Sys2Proof

/-- `OP = cmd_word[39:32]` (R60). -/
def opcodeField (w : CmdWord) : Byte := w.extractLsb' 32 8

/-- `DATA = cmd_word[31:0]` (R60). -/
def dataField (w : CmdWord) : Payload := w.extractLsb' 0 32

/-- `DATA[31:16]`, the first operand of a 16-bit pair (R62). -/
def dataHigh (w : CmdWord) : Half := w.extractLsb' 16 16

/-- `DATA[15:0]`, the second operand of a 16-bit pair (R62). -/
def dataLow (w : CmdWord) : Half := w.extractLsb' 0 16

/-- Byte `k` of `DATA`, byte 0 the least significant (R62, R63). -/
def dataByte (w : CmdWord) (k : Nat) : Byte := w.extractLsb' (8 * k) 8

/-- The command of a word (R61, R68). The bits R63 marks ignored, and all of a reserved command's `DATA`, are dropped. -/
def decode (w : CmdWord) : Instr :=
  let op := opcodeField w
  if op = 0x00 then .sendB00 (dataField w)
  else if op = 0x01 then .sendB01 (dataField w)
  else if op = 0x02 then .sendB02 (dataField w)
  else if op = 0x03 then .sendB03 (dataHigh w) (dataLow w)
  else if op = 0x04 then .sendB04 (dataHigh w) (dataLow w)
  else if op = 0x05 then .sendB05 (dataByte w 3) (dataByte w 2) (dataByte w 1) (dataByte w 0)
  else if op = 0x80 then .setLine (dataByte w 0)
  else if op = 0x81 then .setAddress (dataByte w 1) (dataByte w 0)
  else if op = 0x82 then .setRepeat (dataByte w 0)
  else .reserved op

/-- A word of an opcode and its data (R60). -/
def cmdOf (op : Byte) (data : Payload) : CmdWord := op ++ data

/-- The word of a command, its ignored bits 0 (R61-R63). -/
def encode : Instr → CmdWord
  | .sendB00 f => cmdOf 0x00 f
  | .sendB01 s => cmdOf 0x01 s
  | .sendB02 u => cmdOf 0x02 u
  | .sendB03 a b => cmdOf 0x03 (a ++ b)
  | .sendB04 a b => cmdOf 0x04 (a ++ b)
  | .sendB05 a b c d => cmdOf 0x05 (a ++ b ++ c ++ d)
  | .setLine l => cmdOf 0x80 (0#24 ++ l)
  | .setAddress h c => cmdOf 0x81 (0#16 ++ h ++ c)
  | .setRepeat n => cmdOf 0x82 (0#24 ++ n)
  | .reserved op => cmdOf op 0#32

/-- The bits of a word with opcode `op` that its command keeps: all of a send's, the operand fields of a configuration
command, the opcode alone of a reserved one (R62-R64). -/
def fieldMask (op : Byte) : CmdWord :=
  if op ≤ 0x05 then 0xFFFFFFFFFF
  else if op = 0x80 ∨ op = 0x82 then 0xFF000000FF
  else if op = 0x81 then 0xFF0000FFFF
  else 0xFF00000000

/-- The bits of a word with opcode `op` that can have an effect: those of `fieldMask`, less the bits of the house and
channel operands that the block drops (R63, R64). -/
def effectMask (op : Byte) : CmdWord :=
  if op = 0x81 then 0xFF00000307 else fieldMask op

/-- The host's view of the decoder: the instruction read from a word whose bits are `w`, bit 0 the least significant
bit of the word, as spec/opcode_table.json numbers them. A command is one 40-bit word, so a row of at most 40 bits is
read with zeros above it and a longer one is none. -/
def decodeTableWord (nbits w : Nat) : Option Instr :=
  if nbits ≤ 40 ∧ w < 2 ^ nbits then some (decode (BitVec.ofNat 40 w)) else none

end Sys2Proof
end

