-- ==== Sys2Proof/Config.lean ====
section
/-!
DEFINITION. What is fixed outside the running block: the elaboration parameters of one build (00_scope.md R9, R10), the
input ports as sampled at one rising edge (10_state.md R20), and the free values: what the environment drives where
nothing says, and what the platform does with the pins it has not selected.
-/

namespace Sys2Proof

/-- The elaboration parameters of a block, fixed when it is built (00_scope.md R9, R10; 43_diagnostic_mode.md R116).
`LONG_US` and `SYNC_US` are functions of `SHORT_US` (R9) and are computed in Machine/Params.lean. -/
structure Build where
  /-- `DIAG`: true for a diagnostic build, false for a transmit build. -/
  diag : Bool
  /-- `SHORT_US`, in microseconds. -/
  shortUs : Nat
  /-- `DIAG_EOL`, the bytes of the line break, OPEN (92_eei_decisions.md D17). -/
  diagEol : List Byte
  deriving DecidableEq, Repr

/-- The default build: transmit, `SHORT_US = 300`, `DIAG_EOL = [0x0A]` (R9, R10). -/
def Build.standard : Build :=
  { diag := false, shortUs := 300, diagEol := [0x0A] }

/-- The input ports at one rising edge of `clk` (10_state.md R20); the edge itself is one step of the model. -/
structure Inputs where
  /-- `rst`, synchronous, active high. -/
  rst : Bool
  /-- `us_tick`, the microsecond strobe. -/
  usTick : Bool
  /-- `cmd_valid`: the host presents a command. -/
  cmdValid : Bool
  /-- `cmd_word[39:0]`. -/
  cmdWord : CmdWord
  /-- `diag_ready`: the text sink takes a byte (diagnostic builds). -/
  diagReady : Bool
  deriving DecidableEq, Repr, Inhabited

namespace Config

/-- What the host, the platform and the text sink drive at edge number `n` where the state's list of inputs has run
out: a free value, nothing constrains it (notes/assumptions/4.md). -/
opaque freeInputs : Nat → Inputs

/-- The level of a pin that `line_sel` does not name, at edge number `n`: the OPEN parameter `PIN_ROUTING`
(92_eei_decisions.md D21; notes/assumptions/11.md). -/
opaque otherPin : Byte → Nat → Bool

end Config

end Sys2Proof
end

