-- ==== Sys2Proof/Machine/State.lean ====
section
/-!
DEFINITION. The block's state (10_state.md R43): the configuration and working registers, beside them the build's fixed
parameters and the environment's part (the inputs still to come and the number of edges so far). No memory: the block
has none (20_memory.md R44).
-/

namespace Sys2Proof.Machine

/-- The control state `ST` (R32). Its binary encoding is not observable, so the states are names. -/
inductive Ctl where
  /-- Waiting for a command. -/
  | idle
  /-- Transmit builds: waiting for the first tick edge after the accepting edge. -/
  | arm
  /-- Transmit builds: the HIGH part of a sync pulse. -/
  | syncH
  /-- Transmit builds: the LOW part of a sync pulse. -/
  | syncL
  /-- Transmit builds: the HIGH part of codeword bit `BI`. -/
  | bitH
  /-- Transmit builds: the LOW part of codeword bit `BI`. -/
  | bitL
  /-- Diagnostic builds: presenting the character of codeword bit `BI`. -/
  | dBit
  /-- Diagnostic builds: presenting byte `EOLI` of the line break. -/
  | dEol
  deriving DecidableEq, Repr

/-- The complete state (R43). One-bit registers are `Bool`, HIGH or 1 being `true`. -/
structure State where
  /-- The elaboration parameters of this block; nothing writes them (R116; notes/assumptions/1.md). -/
  build : Build
  /-- `LINE[7:0]` (R24). -/
  line : BitVec 8
  /-- `HOUSE[1:0]` (R25). -/
  house : BitVec 2
  /-- `CHANNEL[2:0]` (R26). -/
  channel : BitVec 3
  /-- `REPEAT[7:0]` (R27). -/
  rep : BitVec 8
  /-- `ST` (R32). -/
  st : Ctl
  /-- `FRAME[48:0]` (R29). -/
  frame : Frame
  /-- `BI[5:0]` (R30). -/
  bi : BitVec 6
  /-- `CUR` (R31). -/
  cur : Bool
  /-- `PAR` (R33). -/
  par : Bool
  /-- `RR[7:0]` (R34). -/
  rr : BitVec 8
  /-- `CNT[13:0]` (R35). -/
  cnt : BitVec 14
  /-- `OUT` (R36). -/
  out : Bool
  /-- `DONE` (R37). -/
  done : Bool
  /-- `EOLI` (R38), of diagnostic builds only; its width follows from `DIAG_EOL`, so it is held as an index, and
  `State.legal` bounds it (notes/assumptions/10.md). -/
  eoli : Nat
  /-- The environment's inputs at the coming edges, the next one first (notes/assumptions/4.md). -/
  inputs : List Inputs
  /-- How many edges there have been: the model's own counter, which numbers the free inputs (notes/assumptions/4.md). -/
  edges : Nat
  deriving DecidableEq, Repr

/-- Why a step of the model stops with a fault. The block itself raises none (60_exceptions.md R133). -/
inductive Fault where
  /-- Raised by `step` at an edge without reset from a state that holds a value the spec says its register never takes
  (`State.legal` is false): no rule says what such an edge does. No legal state steps to one. Safe: the model stops. -/
  | unreachableState
  deriving DecidableEq, Repr

/-- Why a step of the model is refused. -/
inductive Refusal where
  /-- Raised by `exec` alone, for a command whose meaning is not written; no arm raises it now. Safe. -/
  | notModelled (mnemonic : String)
  /-- Raised by `step` for a state whose build breaks a constraint on the parameters: "An elaboration that breaks it is
  refused" (R9, R155), so there is no such block. Safe. -/
  | elaborationRefused
  deriving DecidableEq, Repr

/-- The registers at their reset values in a block of build `b` (70_reset_and_hazards.md R146), with the environment's
part as given. -/
def State.resetOf (b : Build) (inputs : List Inputs) (edges : Nat) : State :=
  { build := b
    line := 9
    house := 0
    channel := 0
    rep := if b.diag then 1 else 4
    st := .idle
    frame := 0
    bi := 0
    cur := false
    par := false
    rr := 0
    cnt := 0
    out := false
    done := false
    eoli := 0
    inputs := inputs
    edges := edges }

/-- The machine right after one reset edge (R146, R147), in the default build (R9, R10), nothing driven yet. -/
def State.reset : State :=
  State.resetOf Build.standard [] 0

end Sys2Proof.Machine
end

