-- ==== Sys2Proof/Machine/Flags.lean ====
section
/-!
DEFINITION. The one flag, the parity accumulator `PAR`: its closed form over the codeword (30_encoding.md R58) and its
online update (41_codeword_framer.md R91-R93).
-/

namespace Sys2Proof.Machine

/-- The number of 1 bits among the `n` bits of `v` from position `lo` up. -/
def onesFrom {w : Nat} (v : BitVec w) (lo : Nat) : Nat → Nat
  | 0 => 0
  | n + 1 => (v.getLsbD lo).toNat + onesFrom v (lo + 1) n

/-- `popcount(v)` (00_scope.md R12). -/
def popcount {w : Nat} (v : BitVec w) : Nat := onesFrom v 0 w

/-- A count modulo 2, as a bit: 1 when it is odd. -/
def oddCount (n : Nat) : Bool := n % 2 == 1

/-- `PARITY = popcount(F49) mod 2` (R58). -/
def parityOf (f : Frame) : Bool := oddCount (popcount f)

/-- The codeword `CW = {F49, PARITY}` (R58). -/
def codeword (f : Frame) : Codeword := f ++ BitVec.ofBool (parityOf f)

/-- The value of codeword bit `i`: `FRAME[i-1]` for `i ≥ 1`, and the accumulator for the parity bit (R94; 10_state.md
R31; 43_diagnostic_mode.md R120). -/
def bitValue (f : Frame) (par : Bool) (i : BitVec 6) : Bool :=
  if i = 0 then par else f.getLsbD (i.toNat - 1)

/-- The base the accumulator is updated from: 0 at bit 49, the first of a repetition, else its old value (R91). -/
def parBase (par : Bool) (i : BitVec 6) : Bool :=
  if i = 49 then false else par

/-- The accumulator once codeword bit `i` is emitted: toggled by a 1 in positions 49 to 1, untouched by the parity bit
(R92, R93). -/
def parNext (f : Frame) (par : Bool) (i : BitVec 6) : Bool :=
  if i = 0 then par else parBase par i ^^ f.getLsbD (i.toNat - 1)

end Sys2Proof.Machine
end

