-- ==== Sys2Proof/Machine/Operands.lean ====
section
/-!
DEFINITION. The operand forms: the six payload packings (40_send_commands.md R75-R81) with the inverses a receiver uses
(R82), the truncations of the configuration operands (44_config_commands.md R128-R130), and the frame built from a tag, an
address and a payload (41_codeword_framer.md R85).
-/

namespace Sys2Proof.Machine

/-- The announce marker, the 4-bit constant `0xB` (00_scope.md R8). -/
def announce : BitVec 4 := 0b1011

/-- Tag 0: the bit pattern of a binary32 value, unchanged (R76). -/
def packB00 (f : Payload) : Payload := f

/-- Tag 1: the two's-complement pattern, unchanged (R77). -/
def packB01 (s : Payload) : Payload := s

/-- Tag 2: the value, unchanged (R78). -/
def packB02 (u : Payload) : Payload := u

/-- Two 16-bit operands "packed high:low", with no sign extension (R79, R80; 20_memory.md R47). -/
def packPair (a b : Half) : Payload := (a.zeroExtend 32 <<< 16) ||| b.zeroExtend 32

/-- Tag 3 (R79). -/
def packB03 (a b : Half) : Payload := packPair a b

/-- Tag 4 (R80). -/
def packB04 (a b : Half) : Payload := packPair a b

/-- Tag 5: four bytes, most significant first (R81). -/
def packB05 (a b c d : Byte) : Payload :=
  (a.zeroExtend 32 <<< 24) ||| (b.zeroExtend 32 <<< 16) ||| (c.zeroExtend 32 <<< 8) ||| d.zeroExtend 32

/-- The binary32 pattern of a tag-0 payload (R82). -/
def unpackB00 (p : Payload) : Payload := p

/-- The signed integer of a tag-1 payload: `p - 2^32` if `p[31] = 1` (R82). -/
def unpackB01 (p : Payload) : Int := p.toInt

/-- The unsigned integer of a tag-2 payload (R82). -/
def unpackB02 (p : Payload) : Nat := p.toNat

/-- The two signed 16-bit integers of a tag-3 payload (R82). -/
def unpackB03 (p : Payload) : Int × Int := ((p.extractLsb' 16 16).toInt, (p.extractLsb' 0 16).toInt)

/-- The two unsigned 16-bit integers of a tag-4 payload (R82). -/
def unpackB04 (p : Payload) : Nat × Nat := ((p.extractLsb' 16 16).toNat, (p.extractLsb' 0 16).toNat)

/-- The four bytes of a tag-5 payload (R82). -/
def unpackB05 (p : Payload) : Byte × Byte × Byte × Byte :=
  (p.extractLsb' 24 8, p.extractLsb' 16 8, p.extractLsb' 8 8, p.extractLsb' 0 8)

/-- `bits_32(s)`, the two's-complement pattern of an integer (00_scope.md R12). -/
def bits32 (s : Int) : Payload := BitVec.ofInt 32 s

/-- `bits_16(s)`; the low 16 bits of a wider integer (R12, R83). -/
def bits16 (s : Int) : Half := BitVec.ofInt 16 s

/-- `HOUSE <- H[1:0]`, the bits `H[7:2]` dropped (R129). -/
def houseBits (h : Byte) : BitVec 2 := h.extractLsb' 0 2

/-- `CHANNEL <- C[2:0]`, the bits `C[7:3]` dropped (R129). -/
def channelBits (c : Byte) : BitVec 3 := c.extractLsb' 0 3

/-- `{4'b1011, tag[7:0], HOUSE[1:0], CHANNEL[2:0], payload[31:0]}` (R85). -/
def frameOf (tag : Byte) (house : BitVec 2) (channel : BitVec 3) (payload : Payload) : Frame :=
  announce ++ tag ++ house ++ channel ++ payload

/-- The announce marker's place in a frame, `FRAME[48:45]` (10_state.md R29). -/
def frameAnnounce (f : Frame) : BitVec 4 := f.extractLsb' 45 4

/-- The tag's place in a frame, codeword bits 45:38 (30_encoding.md R57). -/
def frameTag (f : Frame) : Byte := f.extractLsb' 37 8

end Sys2Proof.Machine
end

