-- ==== Sys2Proof/Machine/Params.lean ====
section
/-!
DEFINITION. The timing parameters of a build and the constraints on them (00_scope.md R9; 70_reset_and_hazards.md R155).
-/

namespace Sys2Proof.Machine

/-- `DELAY_MAX_US`, the ceiling on every duration (R9). -/
def delayMaxUs : Nat := 16383

/-- `SHORT_US` (R9). -/
def shortUs (b : Build) : Nat := b.shortUs

/-- `LONG_US = 3 * SHORT_US` (R9). -/
def longUs (b : Build) : Nat := 3 * b.shortUs

/-- `SYNC_US = 31 * SHORT_US` (R9). -/
def syncUs (b : Build) : Nat := 31 * b.shortUs

/-- How long the HIGH part of a bit of value `v` lasts (42_pulse_serializer.md R99, R100). -/
def bitHighUs (b : Build) (v : Bool) : Nat := if v then longUs b else shortUs b

/-- How long the LOW part of a bit of value `v` lasts (R99, R100). -/
def bitLowUs (b : Build) (v : Bool) : Nat := if v then shortUs b else longUs b

/-- The elaborations that are not refused: `SHORT_US ≥ 1`, every duration within the ceiling, and a non-empty line break
(R9, R155; 43_diagnostic_mode.md R122). -/
def buildLegal (b : Build) : Bool :=
  1 ≤ shortUs b && shortUs b ≤ delayMaxUs && longUs b ≤ delayMaxUs && syncUs b ≤ delayMaxUs && b.diagEol ≠ []

end Sys2Proof.Machine
end

