-- ==== Sys2Proof/Machine/Ops.lean ====
section
/-!
DEFINITION. The named operations the meanings and the state machines share: sampling the inputs of an edge, taking a
command in `IDLE`, starting and counting a segment, and the procedures `start_bit`, `end_sync` and `end_bit` of
41_codeword_framer.md. The block takes no exception and returns from none (60_exceptions.md R133, R138), so there is no
such operation.
-/

namespace Sys2Proof.Machine

/-- What a run of the machine's operations answers. -/
abbrev Result := Host.Outcome State Fault Refusal

/-! ### The inputs of an edge -/

/-- The inputs sampled at the coming edge: the head of the environment's list, and a free value where the list has run
out (notes/assumptions/4.md). -/
def inputsAt (s : State) : Inputs :=
  match s.inputs with
  | [] => Config.freeInputs s.edges
  | p :: _ => p

/-- The environment's part once the coming edge's inputs are sampled. -/
def advance (s : State) : State :=
  { s with inputs := s.inputs.tail, edges := s.edges + 1 }

/-- An edge with `rst = 1`: every register takes its reset value (70_reset_and_hazards.md R145). The build and the
environment's part are no registers of the block and stay. -/
def resetEdge (s : State) : State :=
  State.resetOf s.build s.inputs s.edges

/-- `DONE <- 0`, as at every edge that does not end a send (42_pulse_serializer.md R111). -/
def clearDone (s : State) : State :=
  { s with done := false }

/-! ### Which states the registers can be in -/

/-- `ST` takes only the values of its build (10_state.md R32). -/
def ctlLegal (diag : Bool) : Ctl → Bool
  | .idle => true
  | .arm | .syncH | .syncL | .bitH | .bitL => !diag
  | .dBit | .dEol => diag

/-- Every register holds a value the spec lets it take: `ST` one of its build, `BI` one of 0 to 49, `EOLI` an index into
`DIAG_EOL` (R30, R32, R38). -/
def State.legal (s : State) : Bool :=
  ctlLegal s.build.diag s.st && s.bi.toNat ≤ 49 && decide (s.eoli < s.build.diagEol.length)

/-! ### Taking a command -/

/-- `cmd_ready`, which is `ST == IDLE` (R21). -/
def cmdReady (s : State) : Bool := s.st == .idle

/-- A command is taken in `IDLE` alone (20_memory.md R52): there it leads to `t`; in any other state it is not accepted
and writes nothing (70_reset_and_hazards.md R153). -/
def whenReady (s t : State) : Result :=
  if cmdReady s then .next t else .next s

/-- The effective repeat count of a send: `REPEAT` in a transmit build, 1 in a diagnostic one (41_codeword_framer.md
R86; 43_diagnostic_mode.md R118). -/
def effRepeat (s : State) : BitVec 8 :=
  if s.build.diag then 1 else s.rep

/-- The writes a send makes at its accepting edge in either build: the frame latch, the repeat counter and `DONE`
(40_send_commands.md R74). -/
def loadSend (tag : Byte) (payload : Payload) (s : State) : State :=
  { s with
    frame := frameOf tag s.house s.channel payload
    rr := effRepeat s
    done := false }

/-- The accepting edge of `SEND(tag, payload)`: a transmit build goes to `ARM`, a diagnostic one starts its text (R74,
R119). -/
def acceptSend (tag : Byte) (payload : Payload) (s : State) : State :=
  if s.build.diag then { loadSend tag payload s with st := .dBit, bi := 49, par := false, eoli := 0 }
  else { loadSend tag payload s with st := .arm }

/-! ### Segments and bits -/

/-- What `CNT` is loaded with for a segment of `d` microseconds: `d - 1` (10_state.md R35). -/
def loadCnt (d : Nat) : BitVec 14 := BitVec.ofNat 14 (d - 1)

/-- Start the segment `(level, d)` in control state `st` (42_pulse_serializer.md R104). -/
def startSegment (st : Ctl) (level : Bool) (d : Nat) (s : State) : State :=
  { s with st := st, out := level, cnt := loadCnt d }

/-- One tick edge of a segment: it counts down while `CNT > 0`, and at `CNT = 0` the segment ends and `s'` is next
(R104). -/
def countOr (s s' : State) : State :=
  if s.cnt = 0 then s' else { s with cnt := s.cnt - 1 }

/-- Start the HIGH part of a sync pulse (R106, R97). -/
def startSync (s : State) : State :=
  startSegment .syncH true (shortUs s.build) s

/-- `start_bit(i)` (41_codeword_framer.md R94). -/
def startBit (i : BitVec 6) (s : State) : State :=
  startSegment .bitH true (bitHighUs s.build (bitValue s.frame s.par i))
    { s with par := parNext s.frame s.par i, bi := i, cur := bitValue s.frame s.par i }

/-- `end_sync()` (R95). -/
def endSync (s : State) : State :=
  if s.rr = 0 then { s with st := .idle, done := true }
  else startBit 49 { s with rr := s.rr - 1 }

/-- `end_bit()` (R97). -/
def endBit (s : State) : State :=
  if s.bi = 0 then startSync s else startBit (s.bi - 1) s

end Sys2Proof.Machine
end

