-- ==== Sys2Proof/Machine/Configure.lean ====
section
/-!
DEFINITION. The meanings of the configuration and reserved commands (44_config_commands.md): each writes only the
register it names, truncating its operand to the register's width, and `DONE` is 0 after its edge (R127).
-/

namespace Sys2Proof.Machine

/-- `SET_LINE L`: `LINE <- L[7:0]` (R128). -/
def execSetLine (l : Byte) (s : State) : Result :=
  whenReady s { clearDone s with line := l }

/-- `SET_ADDRESS H, C`: `HOUSE <- H[1:0]`, `CHANNEL <- C[2:0]` (R129). -/
def execSetAddress (h c : Byte) (s : State) : Result :=
  whenReady s { clearDone s with house := houseBits h, channel := channelBits c }

/-- `SET_REPEAT N`: `REPEAT <- N[7:0]` (R130). -/
def execSetRepeat (n : Byte) (s : State) : Result :=
  whenReady s { clearDone s with rep := n }

/-- `RESERVED`: accepted, and no register is written but `DONE`, which falls as at every such edge (R131, R127). The
opcode makes no difference. -/
def execReserved (_op : Byte) (s : State) : Result :=
  whenReady s (clearDone s)

end Sys2Proof.Machine
end

