-- ==== Sys2Proof/Machine/Send.lean ====
section
/-!
DEFINITION. The meanings of the six send commands (40_send_commands.md): each packs its operands into a payload and
hands it, with its tag, to the framer at the accepting edge (R74). The burst that follows is the state machine's
(Machine/Serializer.lean, Machine/Diagnostic.lean).
-/

namespace Sys2Proof.Machine

/-- `SEND_B00 F` (R76). -/
def execSendB00 (f : Payload) (s : State) : Result :=
  whenReady s (acceptSend 0x00 (packB00 f) s)

/-- `SEND_B01 S` (R77). -/
def execSendB01 (v : Payload) (s : State) : Result :=
  whenReady s (acceptSend 0x01 (packB01 v) s)

/-- `SEND_B02 U` (R78). -/
def execSendB02 (u : Payload) (s : State) : Result :=
  whenReady s (acceptSend 0x02 (packB02 u) s)

/-- `SEND_B03 A, B` (R79). -/
def execSendB03 (a b : Half) (s : State) : Result :=
  whenReady s (acceptSend 0x03 (packB03 a b) s)

/-- `SEND_B04 A, B` (R80). -/
def execSendB04 (a b : Half) (s : State) : Result :=
  whenReady s (acceptSend 0x04 (packB04 a b) s)

/-- `SEND_B05 A, B, C, D` (R81). -/
def execSendB05 (a b c d : Byte) (s : State) : Result :=
  whenReady s (acceptSend 0x05 (packB05 a b c d) s)

end Sys2Proof.Machine
end

