-- ==== Sys2Proof/Machine/Dispatch.lean ====
section
/-!
DEFINITION. What each command does at its accepting edge: one arm per constructor of `Instr`, each one call of its
meaning.
-/

namespace Sys2Proof.Machine

def exec (i : Instr) (s : State) : Host.Outcome State Fault Refusal :=
  match i with
  | .sendB00 f => Sys2Proof.Machine.execSendB00 f s
  | .sendB01 v => Sys2Proof.Machine.execSendB01 v s
  | .sendB02 u => Sys2Proof.Machine.execSendB02 u s
  | .sendB03 a b => Sys2Proof.Machine.execSendB03 a b s
  | .sendB04 a b => Sys2Proof.Machine.execSendB04 a b s
  | .sendB05 a b c d => Sys2Proof.Machine.execSendB05 a b c d s
  | .setLine l => Sys2Proof.Machine.execSetLine l s
  | .setAddress h c => Sys2Proof.Machine.execSetAddress h c s
  | .setRepeat n => Sys2Proof.Machine.execSetRepeat n s
  | .reserved op => Sys2Proof.Machine.execReserved op s

end Sys2Proof.Machine
end

