-- ==== Sys2Proof/Machine/Diagnostic.lean ====
section
/-!
DEFINITION. The clocked state machine of a diagnostic build (43_diagnostic_mode.md R119-R126): one edge at which no reset
and no command is taken. `us_tick` is ignored (R117).
-/

namespace Sys2Proof.Machine

/-- A byte of state `D_BIT` is transferred: the accumulator takes the bit and the next position follows, or the line
break after the parity character (R121). -/
def bitTransferred (s : State) : State :=
  if s.bi = 0 then { s with st := .dEol, eoli := 0 }
  else { s with par := parNext s.frame s.par s.bi, bi := s.bi - 1 }

/-- A byte of state `D_EOL` is transferred: the send ends with the last one (R122). -/
def eolTransferred (s : State) : State :=
  if s.eoli = s.build.diagEol.length - 1 then { s with st := .idle, done := true }
  else { s with eoli := s.eoli + 1 }

/-- What a transfer does in each control state. In `IDLE` there is none, and the states of transmit builds are never
reached in a diagnostic build (10_state.md R32): `step` stops before it would ask. -/
def transferEdge (s : State) : State :=
  match s.st with
  | .dBit => bitTransferred s
  | .dEol => eolTransferred s
  | .idle => s
  | .arm => s
  | .syncH => s
  | .syncL => s
  | .bitH => s
  | .bitL => s

/-- An edge of a diagnostic build: `DONE <- 0` unless a send ends, and beyond that only a transfer changes anything
(R121, R122, R126). -/
def diagEdge (p : Inputs) (s : State) : State :=
  if p.diagReady then transferEdge (clearDone s) else clearDone s

end Sys2Proof.Machine
end

