-- ==== Sys2Proof/Machine/Serializer.lean ====
section
/-!
DEFINITION. The clocked state machine of a transmit build (42_pulse_serializer.md R104-R112): one edge at which no reset
and no command is taken.
-/

namespace Sys2Proof.Machine

/-- What a tick edge does in each control state (R105-R110). The two states of diagnostic builds are never reached in a
transmit build (10_state.md R32): `step` stops before it would ask. -/
def tickEdge (s : State) : State :=
  match s.st with
  | .idle => s
  | .arm => startSync s
  | .syncH => countOr s (startSegment .syncL false (syncUs s.build) s)
  | .syncL => countOr s (endSync s)
  | .bitH => countOr s (startSegment .bitL false (bitLowUs s.build s.cur) s)
  | .bitL => countOr s (endBit s)
  | .dBit => s
  | .dEol => s

/-- An edge of a transmit build: `DONE <- 0` unless a send ends (R111), and beyond that only a tick edge changes
anything (R112). -/
def transmitEdge (p : Inputs) (s : State) : State :=
  if p.usTick then tickEdge (clearDone s) else clearDone s

end Sys2Proof.Machine
end

