-- ==== Sys2Proof/Machine/Edge.lean ====
section
/-!
DEFINITION. An edge at which neither a reset nor a command is taken, in either build, and when a command is taken
(20_memory.md R50, R52).
-/

namespace Sys2Proof.Machine

/-- An *accepting edge*, given that `rst = 0`: `cmd_valid = 1` and `cmd_ready = 1` (R50). -/
def accepting (p : Inputs) (s : State) : Bool :=
  p.cmdValid && cmdReady s

/-- The block's own edge, in the build it was built in (43_diagnostic_mode.md R116). -/
def runEdge (p : Inputs) (s : State) : State :=
  if s.build.diag then diagEdge p s else transmitEdge p s

/-- The inputs that present `w` at one edge under the default clocking of 95_test_vectors.md: a tick edge, no reset, the
sink ready. -/
def presenting (w : CmdWord) : Inputs :=
  { rst := false, usTick := true, cmdValid := true, cmdWord := w, diagReady := true }

end Sys2Proof.Machine
end

