-- ==== Sys2Proof/Machine/Step.lean ====
section
/-!
DEFINITION. One step of the machine: one rising edge of `clk` (10_state.md R20). Simultaneous events are resolved as
60_exceptions.md R137 orders them: reset first, then at most one command and only in `IDLE`, else one step of the build's
state machine.
-/

namespace Sys2Proof.Machine

/-- One rising edge of `clk`. -/
def step (s : State) : Host.Outcome State Fault Refusal :=
  if buildLegal s.build = false then .refused .elaborationRefused
  else if (inputsAt s).rst then .next (resetEdge (advance s))
  else if s.legal = false then .fault .unreachableState
  else if accepting (inputsAt s) s then exec (decode (inputsAt s).cmdWord) (advance s)
  else .next (runEdge (inputsAt s) (advance s))

/-- `s` with the word presented at the next edge, in the state that takes it: `IDLE` (notes/assumptions/5.md). A row
longer than the command word's 40 bits does not exist, and only the low 40 bits of `w` reach the port. -/
def State.withFetchWord (s : State) (nbits w : Nat) : State :=
  { s with st := .idle, inputs := presenting (BitVec.ofNat 40 (w % 2 ^ nbits)) :: s.inputs }

end Sys2Proof.Machine
end

