-- ==== Sys2Proof/Machine/Assembler.lean ====
section
/-!
DEFINITION. The command language of 30_encoding.md section 4: mnemonics and the source's operation names (R69, R70), operand
ranges (R69), the pseudo-command `INIT` (R71), the decimal literals of `SEND_B00` (R72) and a word's written form. It is the
host's notation for command words: the block itself never sees it. A line is taken as its mnemonic and its operands, already
split (notes/assumptions/14.md).
-/

namespace Sys2Proof.Machine

/-- What a line of the command language begins with (R69, R71). -/
inductive Mnemonic where
  | sendB00
  | sendB01
  | sendB02
  | sendB03
  | sendB04
  | sendB05
  | setLine
  | setAddress
  | setRepeat
  | initLine
  deriving DecidableEq, Repr

/-- An operand as written: a decimal integer, a `0x` number, or a decimal literal `± coeff * 10^exp`. -/
inductive Operand where
  | int (v : Int)
  | hex (n : Nat)
  | dec (neg : Bool) (coeff : Nat) (exp : Int)
  deriving DecidableEq, Repr

/-- The names each mnemonic is written by: its own, and for a send the two operation names of the source (R69-R71). -/
def spellings : List (Mnemonic × List String) :=
  [ (.sendB00, ["SEND_B00", "sendB00", "sendFloatingPoint"]),
    (.sendB01, ["SEND_B01", "sendB01", "sendSignedLong"]),
    (.sendB02, ["SEND_B02", "sendB02", "sendUnsignedLong"]),
    (.sendB03, ["SEND_B03", "sendB03", "sendSignedIntPair"]),
    (.sendB04, ["SEND_B04", "sendB04", "sendUnsignedIntPair"]),
    (.sendB05, ["SEND_B05", "sendB05", "sendByteQuad"]),
    (.setLine, ["SET_LINE"]),
    (.setAddress, ["SET_ADDRESS"]),
    (.setRepeat, ["SET_REPEAT"]),
    (.initLine, ["INIT"]) ]

/-- The mnemonic a name stands for, none for a name the language does not have. -/
def mnemonicOf (name : String) : Option Mnemonic :=
  (spellings.find? fun row => row.2.contains name).map Prod.fst

/-- An unsigned operand of `w` bits: a number from 0 to `2^w - 1`, else an assembler error (R69). -/
def unsignedField (w : Nat) : Operand → Option (BitVec w)
  | .int v => if 0 ≤ v ∧ v < 2 ^ w then some (BitVec.ofInt w v) else none
  | .hex n => if n < 2 ^ w then some (BitVec.ofNat w n) else none
  | .dec _ _ _ => none

/-- A signed operand of `w` bits: an integer of the signed range, encoded as `bits_w(v)`, or its pattern in hex (R69). -/
def signedField (w : Nat) : Operand → Option (BitVec w)
  | .int v => if -2 ^ (w - 1) ≤ v ∧ v < 2 ^ (w - 1) then some (BitVec.ofInt w v) else none
  | .hex n => if n < 2 ^ w then some (BitVec.ofNat w n) else none
  | .dec _ _ _ => none

/-- `n / d` rounded to the nearest natural number, ties to even. -/
def roundNearestEven (n d : Nat) : Nat :=
  if d < 2 * (n % d) ∨ (d = 2 * (n % d) ∧ n / d % 2 = 1) then n / d + 1 else n / d

/-- The exponent `e` with `2^e ≤ n / d < 2^(e+1)`, for `n` and `d` not 0. -/
def ratioExponent (n d : Nat) : Int :=
  let e : Int := (n.log2 : Int) - (d.log2 : Int)
  if n * 2 ^ (-e).toNat < d * 2 ^ e.toNat then e - 1 else e

/-- The binary32 pattern nearest to `± n / d`, ties to even (R72). The exponent field and the fraction are one number, so
a carry out of the fraction lands in the exponent, and a value past the largest finite one is an infinity. -/
def binary32OfRatio (neg : Bool) (n d : Nat) : Payload :=
  let sign : Nat := if neg then 2 ^ 31 else 0
  if n = 0 then BitVec.ofNat 32 sign
  else
    let q : Int := max (ratioExponent n d - 23) (-149)
    let m := roundNearestEven (n * 2 ^ (-q).toNat) (d * 2 ^ q.toNat)
    BitVec.ofNat 32 (sign + min ((q + 149).toNat * 2 ^ 23 + m) 0x7F800000)

/-- The binary32 pattern of the literal `± coeff * 10^exp` (R72). -/
def binary32OfDecimal (neg : Bool) (coeff : Nat) (exp : Int) : Payload :=
  binary32OfRatio neg (coeff * 10 ^ exp.toNat) (10 ^ (-exp).toNat)

/-- The operand of `SEND_B00`: a pattern in hex, or a decimal literal (R69, R72). -/
def floatField : Operand → Option Payload
  | .int v => some (binary32OfDecimal (decide (v < 0)) v.natAbs 0)
  | .hex n => if n < 2 ^ 32 then some (BitVec.ofNat 32 n) else none
  | .dec neg coeff exp => some (binary32OfDecimal neg coeff exp)

/-- The commands a line stands for; none is an assembler error (R69). `INIT` is two commands, or none of them when it
has no operands (R71). -/
def assemble : Mnemonic → List Operand → Option (List Instr)
  | .sendB00, [f] => do return [.sendB00 (← floatField f)]
  | .sendB01, [v] => do return [.sendB01 (← signedField 32 v)]
  | .sendB02, [u] => do return [.sendB02 (← unsignedField 32 u)]
  | .sendB03, [a, b] => do return [.sendB03 (← signedField 16 a) (← signedField 16 b)]
  | .sendB04, [a, b] => do return [.sendB04 (← unsignedField 16 a) (← unsignedField 16 b)]
  | .sendB05, [a, b, c, d] => do
    return [.sendB05 (← unsignedField 8 a) (← unsignedField 8 b) (← unsignedField 8 c) (← unsignedField 8 d)]
  | .setLine, [l] => do return [.setLine (← unsignedField 8 l)]
  | .setAddress, [h, c] => do return [.setAddress (← unsignedField 8 h) (← unsignedField 8 c)]
  | .setRepeat, [n] => do return [.setRepeat (← unsignedField 8 n)]
  | .initLine, [] => some []
  | .initLine, [l, h, c] => do
    return [.setLine (← unsignedField 8 l), .setAddress (← unsignedField 8 h) (← unsignedField 8 c)]
  | _, _ => none

/-- The words of a line: its name looked up, its commands encoded. -/
def assembleLine (name : String) (operands : List Operand) : Option (List CmdWord) := do
  return (← assemble (← mnemonicOf name) operands).map encode

/-- A hexadecimal digit. -/
def hexDigit (n : Nat) : Char :=
  ['0', '1', '2', '3', '4', '5', '6', '7', '8', '9', 'A', 'B', 'C', 'D', 'E', 'F'].getD n '0'

/-- A word as it is written: `0xOODDDDDDDD`, ten hex digits, opcode first (R69). -/
def wordText (w : CmdWord) : List Char :=
  '0' :: 'x' :: (List.range 10).map fun k => hexDigit (w.extractLsb' (4 * (9 - k)) 4).toNat

end Sys2Proof.Machine
end

