-- ==== Sys2Proof/Machine/Ports.lean ====
section
/-!
DEFINITION. The output ports as functions of the state (10_state.md R21; 43_diagnostic_mode.md R120), and the platform's
routing of the line to a pin (60_exceptions.md R141).
-/

namespace Sys2Proof.Machine

/-- `ook_out`, driven by `OUT`. -/
def ookOut (s : State) : Bool := s.out

/-- `line_sel`, driven by `LINE`. -/
def lineSel (s : State) : BitVec 8 := s.line

/-- `busy`, which is `ST != IDLE`. -/
def busy (s : State) : Bool := s.st != .idle

/-- `done`, driven by `DONE`. -/
def donePort (s : State) : Bool := s.done

/-- `cfg_house`. -/
def cfgHouse (s : State) : BitVec 2 := s.house

/-- `cfg_channel`. -/
def cfgChannel (s : State) : BitVec 3 := s.channel

/-- `cfg_repeat`, the stored repeat count, not the effective one. -/
def cfgRepeat (s : State) : BitVec 8 := s.rep

/-- `diag_valid`: high in `D_BIT` and `D_EOL`, which a transmit build never enters. -/
def diagValid (s : State) : Bool :=
  match s.st with
  | .dBit | .dEol => s.build.diag
  | .idle | .arm | .syncH | .syncL | .bitH | .bitL => false

/-- The text character of a bit: `0x30 + b`, ASCII '0' or '1' (R120). -/
def bitChar (b : Bool) : Byte := if b then 0x31 else 0x30

/-- `diag_data` (R120): the character of bit `BI`, a byte of the line break, or 0 when nothing is presented. -/
def diagData (s : State) : Byte :=
  if diagValid s then
    match s.st with
    | .dBit => bitChar (bitValue s.frame s.par s.bi)
    | .dEol => s.build.diagEol.getD s.eoli 0
    | .idle | .arm | .syncH | .syncL | .bitH | .bitL => 0
  else 0

/-- The level of a pin of the platform: `ook_out` on the pin that `line_sel` names; any other pin is the platform's
(44_config_commands.md R128, the OPEN `PIN_ROUTING`). -/
def pinLevel (s : State) (pin : Byte) : Bool :=
  if pin = lineSel s then ookOut s else Config.otherPin pin s.edges

end Sys2Proof.Machine
end

