-- ==== Sys2Proof/Machine/Waveform.lean ====
section
/-!
DEFINITION. The transaction level (00_scope.md R15): what one send puts on the line as a symbol list (41_codeword_framer.md
R87) and a waveform (42_pulse_serializer.md R98-R103), and what it renders as text in a diagnostic build
(43_diagnostic_mode.md R124).
-/

namespace Sys2Proof.Machine

/-- A symbol of the line (00_scope.md R14). -/
inductive Symbol where
  | sync
  | bit0
  | bit1
  deriving DecidableEq, Repr

/-- A segment `(L, d)`: the line at level `level` for `us` microseconds (R14). -/
structure Segment where
  level : Bool
  us : Nat
  deriving DecidableEq, Repr

/-- `wave(sym)`, the two segments of a symbol (R98-R100). -/
def wave (b : Build) : Symbol → List Segment
  | .sync => [⟨true, shortUs b⟩, ⟨false, syncUs b⟩]
  | .bit0 => [⟨true, shortUs b⟩, ⟨false, longUs b⟩]
  | .bit1 => [⟨true, longUs b⟩, ⟨false, shortUs b⟩]

/-- `bitsym` (R87). -/
def bitSymbol (v : Bool) : Symbol := if v then .bit1 else .bit0

/-- The `n` bits of `v` from position `n-1` down to 0. -/
def bitsDown {w : Nat} (v : BitVec w) : Nat → List Bool
  | 0 => []
  | n + 1 => v.getLsbD n :: bitsDown v n

/-- `bits(CW) = [CW[49], CW[48], ..., CW[1], CW[0]]` (R87; the line's order, 30_encoding.md R59). -/
def lineBits (cw : Codeword) : List Bool := bitsDown cw 50

/-- One repetition: the 50 bits and a sync pulse, 51 symbols (R87). -/
def repetition (cw : Codeword) : List Symbol :=
  (lineBits cw).map bitSymbol ++ [.sync]

/-- The symbols of a burst whose codeword is `cw`, with `r` repetitions (R87). -/
def burstSymbols (cw : Codeword) (r : Nat) : List Symbol :=
  .sync :: (List.replicate r (repetition cw)).flatten

/-- The codeword of a send (30_encoding.md R58). -/
def sendCodeword (tag : Byte) (payload : Payload) (h : BitVec 2) (c : BitVec 3) : Codeword :=
  codeword (frameOf tag h c payload)

/-- `symbols(tag, payload, h, c, r)` (R87). -/
def symbols (tag : Byte) (payload : Payload) (h : BitVec 2) (c : BitVec 3) (r : Nat) : List Symbol :=
  burstSymbols (sendCodeword tag payload h c) r

/-- A symbol list as segments (R102). -/
def wavesOf (b : Build) (syms : List Symbol) : List Segment :=
  syms.flatMap (wave b)

/-- `waveform(tag, payload, h, c, r)` (R102). -/
def waveform (b : Build) (tag : Byte) (payload : Payload) (h : BitVec 2) (c : BitVec 3) (r : Nat) : List Segment :=
  wavesOf b (symbols tag payload h c r)

/-- The total duration of a waveform, in microseconds. -/
def durationUs (segs : List Segment) : Nat := (segs.map Segment.us).sum

/-- `T(r)` (R103). -/
def burstUs (b : Build) (r : Nat) : Nat :=
  (shortUs b + syncUs b) + r * (50 * (shortUs b + longUs b) + shortUs b + syncUs b)

/-- The level of the line in each successive microsecond of a waveform. -/
def levels (segs : List Segment) : List Bool :=
  segs.flatMap fun g => List.replicate g.us g.level

/-- The text of one diagnostic send: a character per codeword bit, then the line break (43_diagnostic_mode.md R124). -/
def diagText (b : Build) (cw : Codeword) : List Byte :=
  (lineBits cw).map bitChar ++ b.diagEol

end Sys2Proof.Machine
end

