-- ==== Sys2Proof/Safety.lean ====
section
/-!
DEFINITION. The terms claims are stated in: the invariant of the block (10_state.md R41; 41_codeword_framer.md R96), what is
seen on the line and at the text sink along a run (42_pulse_serializer.md R113; 43_diagnostic_mode.md R124), and the counts
of tick edges and of transfers that pace it.
-/

namespace Sys2Proof.Machine

/-- The parity of codeword bits 49 to `i`, `popcount(CW[49:i]) mod 2` (R96). -/
def parityDownTo (cw : Codeword) (i : Nat) : Bool := oddCount (onesFrom cw i (50 - i))

/-- What holds after every edge of a block that has been reset. -/
structure BlockInv (s : State) : Prop where
  /-- The elaboration is not refused (R9, R155). -/
  build : buildLegal s.build = true
  /-- Every register holds a value it may take (R30, R32, R38). -/
  legal : s.legal = true
  /-- `CNT ≤ SYNC_US - 1` (R41). -/
  cntBound : s.cnt.toNat ≤ syncUs s.build - 1
  /-- `OUT` is 0 in `IDLE` and `ARM`, in the LOW parts of the symbols (R41), and always in a diagnostic build (R36). -/
  outLow : s.st ≠ .syncH → s.st ≠ .bitH → s.out = false
  /-- `OUT` is 1 in the HIGH parts of the symbols (R41). -/
  outHigh : s.st = .syncH ∨ s.st = .bitH → s.out = true
  /-- `DONE` is 1 only after a return to `IDLE` (R37). -/
  doneIdle : s.done = true → s.st = .idle
  /-- `FRAME[48:45] = 1011` whenever `ST ≠ IDLE` (R41). -/
  announced : s.st ≠ .idle → frameAnnounce s.frame = announce
  /-- The tag of a send in progress is 0 to 5 (30_encoding.md R66). -/
  tagged : s.st ≠ .idle → (frameTag s.frame).toNat ≤ 5
  /-- While bit `BI` is on the line, `CUR = CW[BI]`, and `PAR` is the parity of the bits emitted, the parity bit itself
  left out (R96). -/
  onLine : s.st = .bitH ∨ s.st = .bitL →
    s.cur = (codeword s.frame).getLsbD s.bi.toNat ∧ s.par = parityDownTo (codeword s.frame) (max s.bi.toNat 1)
  /-- While bit `BI` is presented as text, `PAR` is the parity of the bits transferred (R121). -/
  asText : s.st = .dBit → s.par = parityDownTo (codeword s.frame) (s.bi.toNat + 1)
  /-- Once the parity character is transferred, `PAR` is the parity of the 49 data bits (R121, R96). -/
  textDone : s.st = .dEol → s.par = parityDownTo (codeword s.frame) 1

/-- How many of these edges are tick edges (10_state.md R22). -/
def tickCount (ps : List Inputs) : Nat := ps.countP Inputs.usTick

/-- How many of these edges have the text sink ready. -/
def readyCount (ps : List Inputs) : Nat := ps.countP Inputs.diagReady

/-- A run of edges without reset that ends with a tick edge, the `n`-th of them. -/
def endsAtTick (n : Nat) (ps : List Inputs) : Prop :=
  (∀ p ∈ ps, p.rst = false) ∧ tickCount ps = n ∧ ps.getLast?.map Inputs.usTick = some true

/-- A run of edges without reset that ends with the text sink ready, for the `n`-th time. -/
def endsAtReady (n : Nat) (ps : List Inputs) : Prop :=
  (∀ p ∈ ps, p.rst = false) ∧ readyCount ps = n ∧ ps.getLast?.map Inputs.diagReady = some true

/-- The coming edge is one the block's rules speak of: the block exists, its registers hold values they may take, and the
edge is no reset (R9, R30, R32, R137). -/
def edgeOpen (s : State) : Prop :=
  buildLegal s.build = true ∧ s.legal = true ∧ (inputsAt s).rst = false

/-- The next `n` edges, stopping at the first that answers no next state. -/
def runFor : Nat → State → Result
  | 0, s => .next s
  | n + 1, s =>
    match step s with
    | .next t => runFor n t
    | .fault r => .fault r
    | .refused r => .refused r

/-- The level of `ook_out` after each tick edge among the next `n` edges: the line in successive `us_tick` periods. -/
def lineTrace : Nat → State → List Bool
  | 0, _ => []
  | n + 1, s =>
    match step s with
    | .next t => if (inputsAt s).usTick then ookOut t :: lineTrace n t else lineTrace n t
    | .fault _ => []
    | .refused _ => []

/-- A byte is *transferred* at this edge (43_diagnostic_mode.md R117). -/
def transferring (s : State) : Bool :=
  !(inputsAt s).rst && diagValid s && (inputsAt s).diagReady

/-- The bytes transferred to the text sink at the next `n` edges. -/
def textTrace : Nat → State → List Byte
  | 0, _ => []
  | n + 1, s =>
    match step s with
    | .next t => if transferring s then diagData s :: textTrace n t else textTrace n t
    | .fault _ => []
    | .refused _ => []

end Sys2Proof.Machine
end

