-- ==== Sys2Proof/Certificates/Slice0/Obligations.lean ====
section
/-!
DEFINITION. The statements about the model, each from the spec's numbered rules. `edgeOpen s` says that the coming edge is
no reset in a block that exists and whose registers hold values the spec lets them take; `BlockInv` is the invariant of
Safety.lean, which every step keeps (`StepKeepsInv`). In a next state, `advance s` is `s` with the environment's part moved
on by one edge: the model's own bookkeeping (notes/assumptions/4.md), on which no statement about the block rests.
-/

open Sys2Proof Sys2Proof.Machine

/-! ### Encoding -/

/-- Every command the encoding has decodes from its own word, with every operand at every value (R61-R63, R68). -/
def Obligations.DecodeEncodeRoundTrip : Prop :=
  ∀ i : Instr, i.wellFormed = true → decode (encode i) = i

/-- Every word encodes again as itself, less the bits R63 marks ignored and the data of a reserved command: no kept bit is
lost (R63, R64). That `encode` writes 0 in the other bits is the model's choice, notes/assumptions/20.md. -/
def Obligations.EncodeDecodeKeepsFields : Prop :=
  ∀ w : CmdWord, encode (decode w) = w &&& fieldMask (opcodeField w)

/-- The decoder of R68, clause by clause. A send's clause says what the decoded command does: it is the send of tag `op`
and payload `w[31:0]`. -/
def Obligations.DecoderFollowsOpcodeMap : Prop :=
  ∀ w : CmdWord,
    (w.toNat / 2 ^ 32 ≤ 0x05 → ∀ s,
      exec (decode w) s = whenReady s (acceptSend (w.extractLsb' 32 8) (w.extractLsb' 0 32) s)) ∧
    (w.toNat / 2 ^ 32 = 0x80 → decode w = .setLine (w.extractLsb' 0 8)) ∧
    (w.toNat / 2 ^ 32 = 0x81 → decode w = .setAddress (w.extractLsb' 8 8) (w.extractLsb' 0 8)) ∧
    (w.toNat / 2 ^ 32 = 0x82 → decode w = .setRepeat (w.extractLsb' 0 8)) ∧
    (0x05 < w.toNat / 2 ^ 32 ∧ w.toNat / 2 ^ 32 ≠ 0x80 ∧ w.toNat / 2 ^ 32 ≠ 0x81 ∧ w.toNat / 2 ^ 32 ≠ 0x82 →
      decode w = .reserved (w.extractLsb' 32 8))

/-- The encoded examples of R73, assembled, and decoded from the words written there. -/
def Obligations.EncodedExamplesDecode : Prop :=
  (assembleLine "SEND_B00" [.hex 0x3F800000] = some [0x003F800000] ∧ decode 0x003F800000 = .sendB00 0x3F800000) ∧
  (assembleLine "SEND_B01" [.int (-1)] = some [0x01FFFFFFFF] ∧ decode 0x01FFFFFFFF = .sendB01 0xFFFFFFFF) ∧
  (assembleLine "SEND_B02" [.int 0] = some [0x0200000000] ∧ decode 0x0200000000 = .sendB02 0) ∧
  (assembleLine "SEND_B03" [.int (-1), .int 32767] = some [0x03FFFF7FFF] ∧
    decode 0x03FFFF7FFF = .sendB03 0xFFFF 0x7FFF) ∧
  (assembleLine "SEND_B04" [.hex 0x1234, .hex 0x5678] = some [0x0412345678] ∧
    decode 0x0412345678 = .sendB04 0x1234 0x5678) ∧
  (assembleLine "SEND_B05" [.int 1, .int 2, .int 3, .int 4] = some [0x0501020304] ∧
    decode 0x0501020304 = .sendB05 1 2 3 4) ∧
  (assembleLine "SET_LINE" [.int 9] = some [0x8000000009] ∧ decode 0x8000000009 = .setLine 9) ∧
  (assembleLine "SET_ADDRESS" [.int 2, .int 5] = some [0x8100000205] ∧ decode 0x8100000205 = .setAddress 2 5) ∧
  (assembleLine "SET_REPEAT" [.int 4] = some [0x8200000004] ∧ decode 0x8200000004 = .setRepeat 4)

/-- The reserved opcodes are the 247 values of R65; a word carries one exactly when it decodes to `RESERVED`, and no word
at all is illegal: in `IDLE` every word is accepted. -/
def Obligations.ReservedOpcodesAreAccepted : Prop :=
  ((List.range 256).countP (fun n => reservedOpcode (BitVec.ofNat 8 n)) = 247) ∧
  (∀ w : CmdWord, reservedOpcode (opcodeField w) = true ↔ decode w = .reserved (opcodeField w)) ∧
  (∀ w : CmdWord, ∀ s : State, s.st = .idle →
    ∃ t, exec (decode w) s = .next t ∧ (reservedOpcode (opcodeField w) = true → t = { s with done := false }))

/-- A bit that R63 marks ignored, or any data bit of a reserved command, has no effect on any state (R64). -/
def Obligations.IgnoredBitsHaveNoEffect : Prop :=
  ∀ w w' : CmdWord, w &&& effectMask (opcodeField w) = w' &&& effectMask (opcodeField w) →
    (∀ s, exec (decode w) s = exec (decode w') s) ∧
    (∀ (s : State) (p : Inputs) (rest : List Inputs), step { s with inputs := { p with cmdWord := w } :: rest } =
      step { s with inputs := { p with cmdWord := w' } :: rest })

/-- No command puts a tag above 5 on the line: a command that starts a send has its opcode as tag, and its opcode is at
most 5 (R66). -/
def Obligations.TagsAboveFiveAreNeverSent : Prop :=
  ∀ w : CmdWord, ∀ s : State, s.st = .idle →
    ∃ t, exec (decode w) s = .next t ∧
      (t.st ≠ .idle ↔ (opcodeField w).toNat ≤ 5) ∧
      (t.st ≠ .idle → frameTag t.frame = opcodeField w)

/-- `INIT <line>, <house>, <channel>` is `SET_LINE` and `SET_ADDRESS`; run on the block just reset they leave that line,
house and channel, truncated; `INIT` alone is nothing, and the block just reset has line 9, house 0, channel 0; every
other line is one command (R71). -/
def Obligations.InitPseudoCommand : Prop :=
  (∀ l h c : Byte,
    assemble .initLine [.int l.toNat, .int h.toNat, .int c.toNat] = some [.setLine l, .setAddress h c] ∧
    ∀ b inputs edges, ∃ s t, exec (.setLine l) (State.resetOf b inputs edges) = .next s ∧
      exec (.setAddress h c) s = .next t ∧
      t.line = l ∧ t.house.toNat = h.toNat % 4 ∧ t.channel.toNat = c.toNat % 8) ∧
  (assemble .initLine [] = some []) ∧
  (∀ m operands is, assemble m operands = some is → m ≠ .initLine → is.length = 1) ∧
  (∀ b inputs edges, (State.resetOf b inputs edges).line = 9 ∧ (State.resetOf b inputs edges).house = 0 ∧
    (State.resetOf b inputs edges).channel = 0)

/-! ### Reset and the handshake -/

/-- An edge with `rst = 1` gives every register its reset value, whatever the registers and the other inputs are, and the
outputs follow (R145, R146). -/
def Obligations.ResetEdgeRestoresDefaults : Prop :=
  ∀ s : State, buildLegal s.build = true → (inputsAt s).rst = true →
    ∃ t, step s = .next t ∧
      (t.line = 9 ∧ t.house = 0 ∧ t.channel = 0 ∧ t.rep = (if s.build.diag then 1 else 4) ∧ t.st = .idle ∧
        t.out = false ∧ t.done = false ∧ t.frame = 0 ∧ t.bi = 0 ∧ t.cur = false ∧ t.par = false ∧ t.rr = 0 ∧
        t.cnt = 0 ∧ (s.build.diag = true → t.eoli = 0)) ∧
      (ookOut t = false ∧ lineSel t = 9 ∧ cmdReady t = true ∧ busy t = false ∧ donePort t = false ∧
        cfgHouse t = 0 ∧ cfgChannel t = 0 ∧ cfgRepeat t = (if s.build.diag then 1 else 4) ∧
        diagValid t = false ∧ diagData t = 0)

/-- A reset edge leaves the block that `State.resetOf` describes, of the same build (R116), whatever the registers were
(R145, R146). The rest is the model's own: the inputs to come and the edge counter are moved on by one edge and not reset
(notes/assumptions/7.md), and `eoli`, which R38 gives to no transmit build, is 0 in one too (notes/assumptions/10.md). -/
def Obligations.ResetEdgeKeepsBuildAndInputs : Prop :=
  ∀ s : State, buildLegal s.build = true → (inputsAt s).rst = true →
    step s = .next (State.resetOf s.build s.inputs.tail (s.edges + 1))

/-- At the first edge with `rst = 0` after a reset the block is in `IDLE` with `cmd_ready = 1`, and a command presented
at that very edge is accepted (R149). -/
def Obligations.FirstEdgeAfterResetAccepts : Prop :=
  ∀ s t : State, (inputsAt s).rst = true → step s = .next t →
    t.st = .idle ∧ cmdReady t = true ∧
    ((inputsAt t).rst = false → (inputsAt t).cmdValid = true →
      ∃ u, step t = .next u ∧ exec (decode (inputsAt t).cmdWord) (advance t) = .next u)

/-- At an accepting edge the machine's step is the decoded command on the state whose environment has moved on by one
edge; so a word placed at the command port runs as the command it encodes (R50, R52, R68). -/
def Obligations.StepRunsDecodedCommand : Prop :=
  (∀ s : State, edgeOpen s → s.st = .idle → (inputsAt s).cmdValid = true →
    step s = exec (decode (inputsAt s).cmdWord) { s with inputs := s.inputs.tail, edges := s.edges + 1 }) ∧
  (∀ (i : Instr) (s : State), i.wellFormed = true → buildLegal s.build = true → s.legal = true → s.st = .idle →
    step { s with inputs := presenting (encode i) :: s.inputs } = exec i { s with edges := s.edges + 1 })

/-- While a send runs, the command port has no effect: no command is accepted, and `cmd_valid` and `cmd_word` may change
freely; and in `IDLE` the word has none unless `cmd_valid = 1` (R50, R153). -/
def Obligations.CommandPortIsIgnoredWhileBusy : Prop :=
  (∀ (s : State) (p : Inputs) (rest : List Inputs) (v : Bool) (w : CmdWord), s.st ≠ .idle →
    step { s with inputs := { p with cmdValid := v, cmdWord := w } :: rest } = step { s with inputs := p :: rest }) ∧
  (∀ (s : State) (p : Inputs) (rest : List Inputs) (w : CmdWord), p.cmdValid = false →
    step { s with inputs := { p with cmdWord := w } :: rest } = step { s with inputs := p :: rest })

/-- A command that the block is not ready for writes nothing (R52, R153). That the model's `exec` answers the state
unchanged there is its own form of "not accepted" (notes/assumptions/9.md). -/
def Obligations.CommandWaitsWhileBusy : Prop :=
  ∀ (i : Instr) (s : State), s.st ≠ .idle → exec i s = .next s

/-- `IDLE` in a transmit build (R105): ready, with `OUT` at 0; an accepting edge executes the command, a send going to
`ARM` and any other command staying in `IDLE`; at any other edge nothing changes but that `DONE` is 0. -/
def Obligations.IdleWaitsForACommand : Prop :=
  ∀ s : State, edgeOpen s → BlockInv s → s.st = .idle → s.build.diag = false →
    cmdReady s = true ∧ s.out = false ∧
    ((inputsAt s).cmdValid = true →
      ∃ t, step s = .next t ∧ exec (decode (inputsAt s).cmdWord) (advance s) = .next t ∧ t.out = false ∧
        t.st = if (opcodeField (inputsAt s).cmdWord).toNat ≤ 5 then .arm else .idle) ∧
    ((inputsAt s).cmdValid = false → step s = .next { advance s with done := false })

/-! ### The send commands -/

/-- The six sends complete in an idle transmit build: the frame, the repeat counter, `DONE` and `ST` are written, each
payload as its rule packs it, and nothing else is (R74, R76-R81). -/
def Obligations.SendArmsTheTransmitter : Prop :=
  ∀ s : State, s.st = .idle → s.build.diag = false →
    let armed : Byte → Payload → State := fun tag payload =>
      { s with
        frame := 0b1011#4 ++ tag ++ s.house ++ s.channel ++ payload
        rr := s.rep
        done := false
        st := .arm }
    (∀ f, exec (.sendB00 f) s = .next (armed 0 f)) ∧
    (∀ v : Int, -2 ^ 31 ≤ v → v < 2 ^ 31 →
      exec (.sendB01 (BitVec.ofInt 32 v)) s = .next (armed 1 (BitVec.ofNat 32 (v % 2 ^ 32).toNat))) ∧
    (∀ v, exec (.sendB01 v) s = .next (armed 1 v)) ∧
    (∀ u, exec (.sendB02 u) s = .next (armed 2 u)) ∧
    (∀ a b, exec (.sendB03 a b) s = .next (armed 3 (a ++ b))) ∧
    (∀ a b, exec (.sendB04 a b) s = .next (armed 4 (a ++ b))) ∧
    (∀ a b c d, exec (.sendB05 a b c d) s = .next (armed 5 (a ++ b ++ c ++ d)))

/-- The six sends complete in an idle diagnostic build, with the writes of R119 and no others. -/
def Obligations.SendStartsTheText : Prop :=
  ∀ s : State, s.st = .idle → s.build.diag = true →
    let started : Byte → Payload → State := fun tag payload =>
      { s with
        frame := 0b1011#4 ++ tag ++ s.house ++ s.channel ++ payload
        rr := 1
        bi := 49
        par := false
        eoli := 0
        done := false
        st := .dBit }
    (∀ f, exec (.sendB00 f) s = .next (started 0 f)) ∧
    (∀ v, exec (.sendB01 v) s = .next (started 1 v)) ∧
    (∀ u, exec (.sendB02 u) s = .next (started 2 u)) ∧
    (∀ a b, exec (.sendB03 a b) s = .next (started 3 (a ++ b))) ∧
    (∀ a b, exec (.sendB04 a b) s = .next (started 4 (a ++ b))) ∧
    (∀ a b c d, exec (.sendB05 a b c d) s = .next (started 5 (a ++ b ++ c ++ d)))

/-- Each payload encoding round-trips both ways, the signed operands as integers (R82). -/
def Obligations.PayloadsRoundTrip : Prop :=
  (∀ f, unpackB00 (packB00 f) = f) ∧ (∀ p, packB00 (unpackB00 p) = p) ∧
  (∀ v : Int, -2 ^ 31 ≤ v → v < 2 ^ 31 → unpackB01 (packB01 (bits32 v)) = v) ∧
  (∀ p, packB01 (bits32 (unpackB01 p)) = p) ∧
  (∀ u, unpackB02 (packB02 u) = u.toNat) ∧ (∀ p, packB02 (BitVec.ofNat 32 (unpackB02 p)) = p) ∧
  (∀ v w : Int, -2 ^ 15 ≤ v → v < 2 ^ 15 → -2 ^ 15 ≤ w → w < 2 ^ 15 →
    unpackB03 (packB03 (bits16 v) (bits16 w)) = (v, w)) ∧
  (∀ p, packB03 (bits16 (unpackB03 p).1) (bits16 (unpackB03 p).2) = p) ∧
  (∀ a b, unpackB04 (packB04 a b) = (a.toNat, b.toNat)) ∧
  (∀ p, packB04 (BitVec.ofNat 16 (unpackB04 p).1) (BitVec.ofNat 16 (unpackB04 p).2) = p) ∧
  (∀ a b c d, unpackB05 (packB05 a b c d) = (a, b, c, d)) ∧
  (∀ p, packB05 (unpackB05 p).1 (unpackB05 p).2.1 (unpackB05 p).2.2.1 (unpackB05 p).2.2.2 = p)

/-! ### The configuration commands -/

/-- The frame of the configuration and reserved commands: in `IDLE` each writes only the register it names, `DONE` is 0
after its edge, nothing else changes, and an operand wider than its register is truncated (R127). -/
def Obligations.ConfigurationWritesOnlyItsRegister : Prop :=
  ∀ s : State, s.st = .idle →
    (∀ l : Byte, exec (.setLine l) s = .next { s with line := l, done := false }) ∧
    (∀ h c : Byte, exec (.setAddress h c) s =
      .next { s with house := BitVec.ofNat 2 h.toNat, channel := BitVec.ofNat 3 c.toNat, done := false }) ∧
    (∀ n : Byte, exec (.setRepeat n) s = .next { s with rep := n, done := false }) ∧
    (∀ op : Byte, exec (.reserved op) s = .next { s with done := false })

/-- `SET_ADDRESS` truncates: house modulo 4, channel modulo 8, at one edge, with the rule's own examples, and the next
send's codeword, whichever send it is, carries the address in bits 37:33 (R129). -/
def Obligations.SetAddressTruncates : Prop :=
  ∀ s : State, s.st = .idle →
    (∀ h c : Byte, ∃ t, exec (.setAddress h c) s = .next t ∧
      t.house.toNat = h.toNat % 4 ∧ t.channel.toNat = c.toNat % 8 ∧
      t = { s with house := t.house, channel := t.channel, done := false }) ∧
    (∀ (x : Half) (h c : Byte), decode (0x81#8 ++ x ++ h ++ c) = .setAddress h c) ∧
    (exec (.setAddress 6 13) s = .next { s with house := 2, channel := 5, done := false }) ∧
    (exec (.setAddress 255 255) s = .next { s with house := 3, channel := 7, done := false }) ∧
    (∀ w : CmdWord, (opcodeField w).toNat ≤ 5 →
      ∃ t u, exec (decode 0x8100000205) s = .next t ∧ t.house = 2 ∧ t.channel = 5 ∧
        exec (decode w) t = .next u ∧ (codeword u.frame).extractLsb' 33 5 = 0b10101#5)

/-- `SET_REPEAT N` stores `N`, and the next send, whichever it is, makes `N` repetitions in a transmit build and one in a
diagnostic build (R130, R86, R118). -/
def Obligations.SetRepeatRulesTheNextSend : Prop :=
  ∀ (s : State) (n : Byte) (w : CmdWord), s.st = .idle → (opcodeField w).toNat ≤ 5 →
    ∃ t u, exec (.setRepeat n) s = .next t ∧ t.rep = n ∧ cfgRepeat t = n ∧ t.st = .idle ∧
      exec (decode w) t = .next u ∧ u.rep = n ∧ u.rr = (if s.build.diag then 1 else n)

/-- `RESERVED`: accepted in `IDLE`, whatever its opcode and data, and no register is written (R131); `DONE` is 0 after its
edge, as after every edge that ends no send (R127). -/
def Obligations.ReservedCommandsDoNothing : Prop :=
  ∀ (s : State) (op : Byte) (data : Payload), s.st = .idle →
    (0x06 ≤ op.toNat ∧ op.toNat ≤ 0x7F) ∨ (0x83 ≤ op.toNat ∧ op.toNat ≤ 0xFF) →
    exec (decode (op ++ data)) s = .next { s with done := false }

/-- A configuration or reserved command is idempotent: given twice, it leaves the state that once leaves (R51). -/
def Obligations.ConfigurationIsIdempotent : Prop :=
  ∀ (i : Instr) (s : State), s.st = .idle →
    (∀ f, i ≠ .sendB00 f) → (∀ v, i ≠ .sendB01 v) → (∀ u, i ≠ .sendB02 u) → (∀ a b, i ≠ .sendB03 a b) →
    (∀ a b, i ≠ .sendB04 a b) → (∀ a b c d, i ≠ .sendB05 a b c d) →
    ∃ t, exec i s = .next t ∧ exec i t = .next t

/-- A configuration register changes only at a reset or at the accepting edge of its own command (R28). -/
def Obligations.ConfigurationChangesOnlyByItsCommand : Prop :=
  ∀ s t : State, step s = .next t → (inputsAt s).rst = false →
    (t.line ≠ s.line → accepting (inputsAt s) s = true ∧
      ∃ l, decode (inputsAt s).cmdWord = .setLine l ∧ t.line = l) ∧
    (t.house ≠ s.house ∨ t.channel ≠ s.channel → accepting (inputsAt s) s = true ∧
      ∃ h c, decode (inputsAt s).cmdWord = .setAddress h c ∧ t.house = houseBits h ∧ t.channel = channelBits c) ∧
    (t.rep ≠ s.rep → accepting (inputsAt s) s = true ∧
      ∃ n, decode (inputsAt s).cmdWord = .setRepeat n ∧ t.rep = n)

/-- No command, no input and no reset changes the build (R116). -/
def Obligations.BuildNeverChanges : Prop :=
  (∀ s t : State, step s = .next t → t.build = s.build) ∧
  (∀ (i : Instr) (s t : State), exec i s = .next t → t.build = s.build)

/-- Elaborations: every duration of a legal build is within 16383, `SHORT_US` up to 528 is allowed, and a block of any
greater one is refused (R155, R9). -/
def Obligations.DurationCeiling : Prop :=
  (∀ b : Build, buildLegal b = true → shortUs b ≤ 16383 ∧ longUs b ≤ 16383 ∧ syncUs b ≤ 16383) ∧
  (∀ b : Build, 1 ≤ b.shortUs → b.shortUs ≤ 528 → b.diagEol ≠ [] → buildLegal b = true) ∧
  (∀ s : State, 528 < s.build.shortUs → step s = .refused .elaborationRefused)

/-! ### The codeword -/

/-- The codeword of a send: its 49 data bits and its parity bit, its value as a number, its top twelve bits, and the even
number of its ones (R58). -/
def Obligations.CodewordLayout : Prop :=
  ∀ (t : Byte) (h : BitVec 2) (c : BitVec 3) (p : Payload),
    (sendCodeword t p h c).extractLsb' 1 49 = 0b1011#4 ++ t ++ h ++ c ++ p ∧
    ((sendCodeword t p h c).getLsbD 0).toNat = popcount (0b1011#4 ++ t ++ h ++ c ++ p) % 2 ∧
    (sendCodeword t p h c).toNat = 0xB * 2 ^ 46 + t.toNat * 2 ^ 38 + h.toNat * 2 ^ 36 + c.toNat * 2 ^ 33 +
      p.toNat * 2 + popcount (0b1011#4 ++ t ++ h ++ c ++ p) % 2 ∧
    (sendCodeword t p h c).extractLsb' 38 12 = 0xB00 ||| t.zeroExtend 12 ∧
    popcount (sendCodeword t p h c) % 2 = 0

/-- The parity law of a repetition: the 50th bit on the line is the number of ones among the 49 before it, modulo 2, which
is `popcount(CW[49:1]) mod 2`, and the ones among the 50 are even in number (R90). -/
def Obligations.RepetitionParityLaw : Prop :=
  ∀ f : Frame,
    (lineBits (codeword f)).length = 50 ∧
    ((lineBits (codeword f)).getLast?.map Bool.toNat = some (((lineBits (codeword f)).take 49).count true % 2)) ∧
    ((lineBits (codeword f)).getLast?.map Bool.toNat = some (popcount ((codeword f).extractLsb' 1 49) % 2)) ∧
    (lineBits (codeword f)).count true % 2 = 0

/-! ### The waveform -/

/-- The three waveforms, with their durations at the default parameters, and the duration of a bit, whatever its value
(R98-R100; R101's durations). -/
def Obligations.SymbolWaveforms : Prop :=
  (∀ b : Build,
    wave b .sync = [⟨true, shortUs b⟩, ⟨false, syncUs b⟩] ∧
    wave b .bit0 = [⟨true, shortUs b⟩, ⟨false, longUs b⟩] ∧
    wave b .bit1 = [⟨true, longUs b⟩, ⟨false, shortUs b⟩] ∧
    durationUs (wave b .sync) = 32 * b.shortUs ∧
    ∀ v, durationUs (wave b (bitSymbol v)) = 4 * b.shortUs) ∧
  wave Build.standard .sync = [⟨true, 300⟩, ⟨false, 9300⟩] ∧
  wave Build.standard .bit0 = [⟨true, 300⟩, ⟨false, 900⟩] ∧
  wave Build.standard .bit1 = [⟨true, 900⟩, ⟨false, 300⟩]

/-- The symbols of a burst: `1 + 51 r` of them, `r + 1` sync pulses and `50 r` bits, a sync pulse first and last, each
repetition the same 51, and one sync pulse alone for `r = 0` (R87-R89). -/
def Obligations.BurstSymbolCounts : Prop :=
  ∀ (cw : Codeword) (r : Nat),
    (burstSymbols cw r).length = 1 + 51 * r ∧
    (burstSymbols cw r).count .sync = r + 1 ∧
    (burstSymbols cw r).count .bit0 + (burstSymbols cw r).count .bit1 = 50 * r ∧
    (burstSymbols cw r).head? = some .sync ∧
    (burstSymbols cw r).getLast? = some .sync ∧
    burstSymbols cw 0 = [.sync] ∧
    burstSymbols cw (r + 1) = burstSymbols cw r ++ repetition cw

/-- The total duration of a burst, `T(r)`, at any parameters and at the default ones, with the number of its segments and
of its sync pulses (R103). -/
def Obligations.BurstDuration : Prop :=
  ∀ (b : Build) (tag : Byte) (p : Payload) (h : BitVec 2) (c : BitVec 3) (r : Nat),
    durationUs (waveform b tag p h c r) =
      (shortUs b + syncUs b) + r * (50 * (shortUs b + longUs b) + shortUs b + syncUs b) ∧
    durationUs (waveform b tag p h c r) = 32 * b.shortUs + r * (232 * b.shortUs) ∧
    durationUs (waveform Build.standard tag p h c r) = 9600 + 69600 * r ∧
    (waveform b tag p h c r).length = 2 + 102 * r ∧
    (symbols tag p h c r).count .sync = r + 1

/-- The segments of a burst alternate strictly HIGH, LOW, from HIGH to LOW (R102). -/
def Obligations.WaveformAlternates : Prop :=
  ∀ (b : Build) (tag : Byte) (p : Payload) (h : BitVec 2) (c : BitVec 3) (r k : Nat) (g : Segment),
    (waveform b tag p h c r)[k]? = some g →
      g.level = (k % 2 == 0) ∧ ((waveform b tag p h c r)[k + 1]? = none → g.level = false)

/-! ### The transmit build's state machine -/

/-- `ARM` waits for the first tick edge after the accepting edge and then starts the leading sync pulse; the accepting
edge, a tick edge or not, starts none (R106). -/
def Obligations.ArmWaitsForTheFirstTick : Prop :=
  (∀ s : State, edgeOpen s → s.st = .arm →
    step s = .next (if (inputsAt s).usTick then
        { advance s with st := .syncH, out := true, cnt := BitVec.ofNat 14 (s.build.shortUs - 1), done := false }
      else { advance s with done := false })) ∧
  (∀ s : State, edgeOpen s → s.st = .idle → s.build.diag = false → (inputsAt s).cmdValid = true →
    (opcodeField (inputsAt s).cmdWord).toNat ≤ 5 →
    ∃ t, step s = .next t ∧ t.st = .arm ∧ t.out = s.out ∧ t.cnt = s.cnt)

/-- `SYNC_H` at a tick edge (R107). -/
def Obligations.SyncHighPart : Prop :=
  ∀ s : State, edgeOpen s → s.st = .syncH → (inputsAt s).usTick = true →
    step s = .next (if 0 < s.cnt.toNat then { advance s with cnt := BitVec.ofNat 14 (s.cnt.toNat - 1), done := false }
      else { advance s with st := .syncL, out := false, cnt := BitVec.ofNat 14 (31 * s.build.shortUs - 1), done := false })

/-- `SYNC_L` at a tick edge: at the end of a sync pulse the burst is over when no repetition is left, and else a new one
starts with bit 49, the parity reset (R108, R95). -/
def Obligations.SyncLowPart : Prop :=
  ∀ s : State, edgeOpen s → s.st = .syncL → (inputsAt s).usTick = true →
    step s = .next (
      if 0 < s.cnt.toNat then { advance s with cnt := BitVec.ofNat 14 (s.cnt.toNat - 1), done := false }
      else if s.rr.toNat = 0 then { advance s with st := .idle, done := true }
      else { advance s with
        rr := BitVec.ofNat 8 (s.rr.toNat - 1)
        par := s.frame.getLsbD 48
        bi := 49
        cur := s.frame.getLsbD 48
        st := .bitH
        out := true
        cnt := BitVec.ofNat 14 ((if s.frame.getLsbD 48 then 3 * s.build.shortUs else s.build.shortUs) - 1)
        done := false })

/-- `BIT_H` at a tick edge (R109). -/
def Obligations.BitHighPart : Prop :=
  ∀ s : State, edgeOpen s → s.st = .bitH → (inputsAt s).usTick = true →
    step s = .next (if 0 < s.cnt.toNat then { advance s with cnt := BitVec.ofNat 14 (s.cnt.toNat - 1), done := false }
      else { advance s with
        st := .bitL
        out := false
        cnt := BitVec.ofNat 14 ((if s.cur then s.build.shortUs else 3 * s.build.shortUs) - 1)
        done := false })

/-- `BIT_L` at a tick edge: the next bit, toggling the accumulator if it is a 1; after bit 1 the parity bit, which is the
accumulator and leaves it alone; after the parity bit the trailing sync pulse (R110, R97, with R92 to R94). -/
def Obligations.BitLowPart : Prop :=
  ∀ s : State, edgeOpen s → s.st = .bitL → (inputsAt s).usTick = true →
    step s = .next (
      if 0 < s.cnt.toNat then { advance s with cnt := BitVec.ofNat 14 (s.cnt.toNat - 1), done := false }
      else if s.bi.toNat = 0 then
        { advance s with st := .syncH, out := true, cnt := BitVec.ofNat 14 (s.build.shortUs - 1), done := false }
      else if s.bi.toNat = 1 then
        { advance s with
          bi := 0
          cur := s.par
          st := .bitH
          out := true
          cnt := BitVec.ofNat 14 ((if s.par then 3 * s.build.shortUs else s.build.shortUs) - 1)
          done := false }
      else
        { advance s with
          par := s.par ^^ s.frame.getLsbD (s.bi.toNat - 2)
          bi := BitVec.ofNat 6 (s.bi.toNat - 1)
          cur := s.frame.getLsbD (s.bi.toNat - 2)
          st := .bitH
          out := true
          cnt := BitVec.ofNat 14
            ((if s.frame.getLsbD (s.bi.toNat - 2) then 3 * s.build.shortUs else s.build.shortUs) - 1)
          done := false })

/-- Nothing of the previous repetition or send carries into a new one: the edge that starts bit 49 gives one state,
whatever `PAR`, `CUR` and `BI` held (R91). -/
def Obligations.NewRepetitionForgetsTheOld : Prop :=
  ∀ (s : State) (par cur : Bool) (bi : BitVec 6), edgeOpen s → bi.toNat ≤ 49 → s.st = .syncL →
    (inputsAt s).usTick = true → s.cnt = 0 → s.rr ≠ 0 →
    step { s with par := par, cur := cur, bi := bi } = step s

/-- A segment of `CNT + 1` ticks: over any edges without reset among which there are `k ≤ CNT` tick edges, the counter
falls by `k` and nothing else changes, `ook_out` among the rest; and the tick edge number `CNT + 1` ends the segment: the
block is then in the state after it (R104). -/
def Obligations.SegmentCountsItsTicks : Prop :=
  ∀ (s : State) (ps rest : List Inputs), BlockInv s → s.st ∈ [Ctl.syncH, .syncL, .bitH, .bitL] →
    ((∀ p ∈ ps, p.rst = false) → tickCount ps ≤ s.cnt.toNat →
      runFor ps.length { s with inputs := ps ++ rest } =
        .next { s with
          inputs := rest
          edges := s.edges + ps.length
          cnt := BitVec.ofNat 14 (s.cnt.toNat - tickCount ps) }) ∧
    (endsAtTick (s.cnt.toNat + 1) ps →
      ∃ t, runFor ps.length { s with inputs := ps ++ rest } = .next t ∧ t.inputs = rest ∧
        ((s.st = .syncH ∧ t.st = .syncL) ∨ (s.st = .syncL ∧ (t.st = .bitH ∨ t.st = .idle)) ∨
          (s.st = .bitH ∧ t.st = .bitL) ∨ (s.st = .bitL ∧ (t.st = .bitH ∨ t.st = .syncH))))

/-- A send makes no progress and does not fault while its pace is withheld: in a transmit build while no tick comes, in a
diagnostic build while the sink is not ready, the block stays as it is (R135). That such an edge is a step without effect is
the model's form of "stuck" (notes/assumptions/15.md). -/
def Obligations.SendIsStuckWithoutItsPace : Prop :=
  ∀ (s : State) (ps rest : List Inputs), BlockInv s → s.st ≠ .idle → (∀ p ∈ ps, p.rst = false) →
    (s.build.diag = false → ∀ p ∈ ps, p.usTick = false) → (s.build.diag = true → ∀ p ∈ ps, p.diagReady = false) →
    busy s = true ∧
    runFor ps.length { s with inputs := ps ++ rest } =
      .next { s with inputs := rest, edges := s.edges + ps.length }

/-- `DONE` is 1 after an edge exactly when a send ends at it: in a transmit build at the end of a sync pulse with no
repetition left, in a diagnostic one with the last byte of the line break. It is 1 for one cycle: the block is then in
`IDLE`, and the next edge clears it (R111, R37). -/
def Obligations.DonePulsesAtTheEndOfASend : Prop :=
  ∀ s t : State, step s = .next t →
    (t.done = true ↔ (inputsAt s).rst = false ∧
      ((s.build.diag = false ∧ s.st = .syncL ∧ (inputsAt s).usTick = true ∧ s.cnt = 0 ∧ s.rr = 0) ∨
       (s.build.diag = true ∧ s.st = .dEol ∧ (inputsAt s).diagReady = true ∧
         s.eoli + 1 = s.build.diagEol.length))) ∧
    (t.done = true → t.st = .idle ∧ ∀ u, step t = .next u → u.done = false)

/-! ### The diagnostic build -/

/-- `IDLE` in a diagnostic build: ready, presenting no byte; an accepting edge executes the command, a send going to
`D_BIT` and any other command staying in `IDLE`; at any other edge nothing changes, whatever `us_tick` and `diag_ready`
are, but that `DONE` is 0 (R126, R52, R122). -/
def Obligations.DiagnosticIdleWaitsForACommand : Prop :=
  ∀ s : State, edgeOpen s → s.st = .idle → s.build.diag = true →
    cmdReady s = true ∧ diagValid s = false ∧
    ((inputsAt s).cmdValid = true →
      ∃ t, step s = .next t ∧ exec (decode (inputsAt s).cmdWord) (advance s) = .next t ∧ t.out = s.out ∧
        t.st = if (opcodeField (inputsAt s).cmdWord).toNat ≤ 5 then .dBit else .idle) ∧
    ((inputsAt s).cmdValid = false → step s = .next { advance s with done := false })

/-- The text port as a function of the state, and steady while the sink is not ready (R120). -/
def Obligations.TextPortShowsTheBit : Prop :=
  ∀ s : State, s.build.diag = true →
    (s.st = .dBit → diagValid s = true ∧
      (diagData s).toNat = 0x30 + (if 1 ≤ s.bi.toNat then s.frame.getLsbD (s.bi.toNat - 1) else s.par).toNat) ∧
    (s.st = .dEol → diagValid s = true ∧ ∀ h : s.eoli < s.build.diagEol.length, diagData s = s.build.diagEol[s.eoli]) ∧
    (s.st ≠ .dBit → s.st ≠ .dEol → diagValid s = false ∧ diagData s = 0) ∧
    (edgeOpen s → diagValid s = true → (inputsAt s).diagReady = false →
      ∃ t, step s = .next t ∧ diagValid t = true ∧ diagData t = diagData s)

/-- `D_BIT` (R121): a transfer takes the bit into the accumulator and moves on, the parity character leading to the line
break; without a transfer nothing changes; and the parity character is that of `CW[0]`. -/
def Obligations.TextBitTransfer : Prop :=
  (∀ s : State, BlockInv s → s.st = .dBit → s.bi = 0 → diagData s = bitChar ((codeword s.frame).getLsbD 0)) ∧
  ∀ s : State, edgeOpen s → s.st = .dBit →
    step s = .next (
      if (inputsAt s).diagReady = false then { advance s with done := false }
      else if s.bi.toNat = 0 then { advance s with st := .dEol, eoli := 0, done := false }
      else { advance s with
        par := (if s.bi.toNat = 49 then false else s.par) ^^ s.frame.getLsbD (s.bi.toNat - 1)
        bi := BitVec.ofNat 6 (s.bi.toNat - 1)
        done := false })

/-- `D_EOL` (R122): a transfer moves on in the line break, whose last byte ends the send; without a transfer nothing
changes. -/
def Obligations.TextEolTransfer : Prop :=
  ∀ s : State, edgeOpen s → s.st = .dEol →
    step s = .next (
      if (inputsAt s).diagReady = false then { advance s with done := false }
      else if s.eoli + 1 = s.build.diagEol.length then { advance s with st := .idle, done := true }
      else { advance s with eoli := s.eoli + 1, done := false })

/-- A diagnostic build ignores `us_tick`, and `ook_out` is constant 0 in it: it is 0 in every block that meets the
invariant, before and after an edge, and no edge writes `OUT` but a reset (R117, R36). -/
def Obligations.DiagnosticBuildDrivesNoLine : Prop :=
  ∀ (s : State) (p : Inputs) (rest : List Inputs) (tick : Bool), s.build.diag = true →
    step { s with inputs := { p with usTick := tick } :: rest } = step { s with inputs := p :: rest } ∧
    (BlockInv s → ookOut s = false) ∧
    ∀ t, step { s with inputs := p :: rest } = .next t →
      (t.out = if p.rst then false else s.out) ∧ (BlockInv s → ookOut t = false)

/-- One diagnostic send transfers the 50 characters of its codeword and the line break, no more and no fewer, however the
sink paces it, and then the block is in `IDLE` with `DONE` set; and the text of the rule's example (R124). -/
def Obligations.TextOfADiagnosticSend : Prop :=
  (∀ (s : State) (p : Inputs) (ps rest : List Inputs), BlockInv s → s.st = .idle → s.build.diag = true →
    s.inputs = p :: (ps ++ rest) → p.rst = false → p.cmdValid = true → (opcodeField p.cmdWord).toNat ≤ 5 →
    endsAtReady (50 + s.build.diagEol.length) ps →
    ∃ t u, step s = .next t ∧ runFor ps.length t = .next u ∧
      textTrace ps.length t =
        diagText s.build (sendCodeword (opcodeField p.cmdWord) (dataField p.cmdWord) s.house s.channel) ∧
      u.st = .idle ∧ u.done = true ∧ u.inputs = rest) ∧
  diagText Build.standard (sendCodeword 5 0x01020304 2 5) =
    [0x31, 0x30, 0x31, 0x31, 0x30, 0x30, 0x30, 0x30, 0x30, 0x31, 0x30, 0x31, 0x31, 0x30, 0x31, 0x30, 0x31, 0x30, 0x30,
     0x30, 0x30, 0x30, 0x30, 0x30, 0x31, 0x30, 0x30, 0x30, 0x30, 0x30, 0x30, 0x31, 0x30, 0x30, 0x30, 0x30, 0x30, 0x30,
     0x30, 0x31, 0x31, 0x30, 0x30, 0x30, 0x30, 0x30, 0x31, 0x30, 0x30, 0x31, 0x0A]

/-! ### Headline results -/

/-- Agreement of the two levels (R113). A send accepted in a transmit build puts exactly its waveform on the line: over
any edges without reset that hold `T(r) + 1` tick edges and end at the last, `ook_out` in the successive tick periods is
the waveform, microsecond by microsecond, and LOW after it; at that last edge the block is back in `IDLE` with `DONE`
set. -/
def Obligations.LineCarriesTheWaveform : Prop :=
  ∀ (s : State) (p : Inputs) (ps rest : List Inputs), BlockInv s → s.st = .idle → s.build.diag = false →
    s.inputs = p :: (ps ++ rest) → p.rst = false → p.cmdValid = true → (opcodeField p.cmdWord).toNat ≤ 5 →
    endsAtTick (burstUs s.build s.rep.toNat + 1) ps →
    ∃ t u, step s = .next t ∧ runFor ps.length t = .next u ∧
      lineTrace ps.length t =
        levels (waveform s.build (opcodeField p.cmdWord) (dataField p.cmdWord) s.house s.channel s.rep.toNat) ++
          [false] ∧
      u.st = .idle ∧ u.done = true ∧ u.out = false ∧ u.inputs = rest

/-- The invariant holds in a block just reset, of every elaboration that is not refused (R146, R41). -/
def Obligations.ResetMeetsInv : Prop :=
  BlockInv State.reset ∧ ∀ b inputs edges, buildLegal b = true → BlockInv (State.resetOf b inputs edges)

/-- Every step keeps the invariant of the block: the bounds on the registers, the levels of the line, the announce marker
and the tag of a running send, and the agreement of the online accumulator with the codeword's parity (R41, R96). -/
def Obligations.StepKeepsInv : Prop :=
  ∀ s t : State, BlockInv s → step s = .next t → BlockInv t

/-- The accumulator agrees with the closed form while a bit is on the line: `PAR` is `popcount(CW[49:i]) mod 2` at data bit
`i`, and at the parity bit `CUR = PAR = popcount(CW[49:1]) mod 2 = CW[0]` (R96). -/
def Obligations.AccumulatorAgreesWithParity : Prop :=
  ∀ s : State, BlockInv s → s.st = .bitH ∨ s.st = .bitL →
    (1 ≤ s.bi.toNat → s.par.toNat = popcount ((codeword s.frame).extractLsb' s.bi.toNat (50 - s.bi.toNat)) % 2) ∧
    (s.bi.toNat = 0 → s.cur = s.par ∧ s.par.toNat = popcount ((codeword s.frame).extractLsb' 1 49) % 2 ∧
      s.cur = (codeword s.frame).getLsbD 0)

/-- The block raises no exception: in every state whose registers hold values they may take, every edge, with whatever
inputs, leads to a next state (R133, R134). -/
def Obligations.BlockNeverFaults : Prop :=
  ∀ s : State, buildLegal s.build = true → s.legal = true → ∃ t, step s = .next t ∧ t.legal = true

/-- No working register leaks from one send into the next: two idle blocks that agree on the build, the configuration and
the inputs to come put the same levels on the line and the same bytes at the sink for ever, whatever their working
registers hold (R40, R84). -/
def Obligations.WorkingRegistersDoNotLeak : Prop :=
  ∀ s s' : State, BlockInv s → BlockInv s' → s.st = .idle → s'.st = .idle → s.build = s'.build → s.line = s'.line →
    s.house = s'.house → s.channel = s'.channel → s.rep = s'.rep → s.inputs = s'.inputs → s.edges = s'.edges →
    ∀ n, lineTrace n s = lineTrace n s' ∧ textTrace n s = textTrace n s'
end

