-- ==== Sys2Proof/Laws/Flags.lean ====
section
/-!
SUPPORT. The codeword's bits and its parity: the bits of `codeword f` are the frame's and the parity bit, and the parity
of its upper bits grows by one bit at a time, as the online accumulator does (41_codeword_framer.md R92, R96).
-/

namespace Sys2Proof.Machine

theorem onesFrom_succ {w : Nat} (v : BitVec w) (lo n : Nat) :
    onesFrom v lo (n + 1) = (v.getLsbD lo).toNat + onesFrom v (lo + 1) n := rfl

theorem oddCount_bit_add (b : Bool) (n : Nat) : oddCount (b.toNat + n) = (b ^^ oddCount n) := by
  cases b <;> simp only [oddCount, Bool.toNat_false, Bool.toNat_true, Nat.zero_add, Bool.false_bne]
  rcases Nat.mod_two_eq_zero_or_one n with h | h <;> simp [Nat.add_mod, h]

theorem oddCount_toNat (n : Nat) : (oddCount n).toNat = n % 2 := by
  rcases Nat.mod_two_eq_zero_or_one n with h | h <;> simp [oddCount, h]

@[simp] theorem codeword_zero (f : Frame) : (codeword f).getLsbD 0 = parityOf f := by
  rw [codeword, BitVec.getLsbD_append]; simp

@[simp] theorem codeword_succ (f : Frame) (i : Nat) : (codeword f).getLsbD (i + 1) = f.getLsbD i := by
  rw [codeword, BitVec.getLsbD_append]; simp

theorem onesFrom_codeword (f : Frame) (lo n : Nat) : onesFrom (codeword f) (lo + 1) n = onesFrom f lo n := by
  induction n generalizing lo with
  | zero => rfl
  | succ n ih => simp [onesFrom, ih]

/-- The parity bit is the parity of the 49 data bits (30_encoding.md R58). -/
theorem parityDownTo_one (f : Frame) : parityDownTo (codeword f) 1 = parityOf f := by
  simp [parityDownTo, onesFrom_codeword f 0 49, parityOf, popcount]

@[simp] theorem parityDownTo_top (cw : Codeword) : parityDownTo cw 50 = false := rfl

/-- One bit more: the parity of bits 49 to `i` toggles with bit `i` (R92). -/
theorem parityDownTo_step (cw : Codeword) {i : Nat} (h : i < 50) :
    parityDownTo cw i = (cw.getLsbD i ^^ parityDownTo cw (i + 1)) := by
  have : 50 - i = (50 - (i + 1)) + 1 := by omega
  rw [parityDownTo, this, onesFrom_succ, oddCount_bit_add, ← parityDownTo]

theorem bi_zero_iff (i : BitVec 6) : i = 0 ↔ i.toNat = 0 := by
  simp [← BitVec.toNat_inj]

theorem bi_top_iff (i : BitVec 6) : i = 49 ↔ i.toNat = 49 := by
  simp [← BitVec.toNat_inj]

/-- A bit that starts has the codeword's value, if the accumulator holds the parity of the bits before it (R94, R96). -/
theorem bitValue_codeword (f : Frame) (par : Bool) (i : BitVec 6) (h : i.toNat = 0 → par = parityOf f) :
    bitValue f par i = (codeword f).getLsbD i.toNat := by
  unfold bitValue
  split
  · next h0 =>
    have h0' := (bi_zero_iff i).mp h0
    rw [h0', codeword_zero, h h0']
  · next h0 =>
    obtain ⟨k, hk⟩ : ∃ k, i.toNat = k + 1 := Nat.exists_eq_succ_of_ne_zero (mt (bi_zero_iff i).mpr h0)
    simp [hk]

/-- A data bit that is emitted brings the accumulator from the parity of the bits above it to that of the bits down to it
(R91, R92). -/
theorem parNext_codeword (f : Frame) (par : Bool) (i : BitVec 6) (h1 : 1 ≤ i.toNat) (h49 : i.toNat ≤ 49)
    (h : i.toNat ≠ 49 → par = parityDownTo (codeword f) (i.toNat + 1)) :
    parNext f par i = parityDownTo (codeword f) i.toNat := by
  obtain ⟨k, hk⟩ : ∃ k, i.toNat = k + 1 := Nat.exists_eq_succ_of_ne_zero (by omega)
  have h0 : i ≠ 0 := by rw [Ne, bi_zero_iff]; omega
  rw [parityDownTo_step _ (by omega), hk, codeword_succ]
  simp only [parNext, h0, if_false, parBase, hk, bi_top_iff, Nat.add_sub_cancel]
  split
  · next ht => rw [ht]; simp
  · next ht => rw [h (by omega), hk, Bool.xor_comm]

/-- The parity bit leaves the accumulator alone (R93). -/
@[simp] theorem parNext_zero (f : Frame) (par : Bool) : parNext f par 0 = par := rfl

end Sys2Proof.Machine
end

