-- ==== Sys2Proof/Laws/State.lean ====
section
/-!
SUPPORT. What each named update of the state writes and what it leaves: one lemma per field per update, so that no proof
unfolds a record update.
-/

namespace Sys2Proof.Machine

@[simp] theorem advance_build (s : State) : (advance s).build = s.build := rfl
@[simp] theorem advance_line (s : State) : (advance s).line = s.line := rfl
@[simp] theorem advance_house (s : State) : (advance s).house = s.house := rfl
@[simp] theorem advance_channel (s : State) : (advance s).channel = s.channel := rfl
@[simp] theorem advance_rep (s : State) : (advance s).rep = s.rep := rfl
@[simp] theorem advance_st (s : State) : (advance s).st = s.st := rfl
@[simp] theorem advance_frame (s : State) : (advance s).frame = s.frame := rfl
@[simp] theorem advance_bi (s : State) : (advance s).bi = s.bi := rfl
@[simp] theorem advance_cur (s : State) : (advance s).cur = s.cur := rfl
@[simp] theorem advance_par (s : State) : (advance s).par = s.par := rfl
@[simp] theorem advance_rr (s : State) : (advance s).rr = s.rr := rfl
@[simp] theorem advance_cnt (s : State) : (advance s).cnt = s.cnt := rfl
@[simp] theorem advance_out (s : State) : (advance s).out = s.out := rfl
@[simp] theorem advance_done (s : State) : (advance s).done = s.done := rfl
@[simp] theorem advance_eoli (s : State) : (advance s).eoli = s.eoli := rfl
@[simp] theorem advance_inputs (s : State) : (advance s).inputs = s.inputs.tail := rfl
@[simp] theorem advance_edges (s : State) : (advance s).edges = s.edges + 1 := rfl

@[simp] theorem clearDone_build (s : State) : (clearDone s).build = s.build := rfl
@[simp] theorem clearDone_line (s : State) : (clearDone s).line = s.line := rfl
@[simp] theorem clearDone_house (s : State) : (clearDone s).house = s.house := rfl
@[simp] theorem clearDone_channel (s : State) : (clearDone s).channel = s.channel := rfl
@[simp] theorem clearDone_rep (s : State) : (clearDone s).rep = s.rep := rfl
@[simp] theorem clearDone_st (s : State) : (clearDone s).st = s.st := rfl
@[simp] theorem clearDone_frame (s : State) : (clearDone s).frame = s.frame := rfl
@[simp] theorem clearDone_bi (s : State) : (clearDone s).bi = s.bi := rfl
@[simp] theorem clearDone_cur (s : State) : (clearDone s).cur = s.cur := rfl
@[simp] theorem clearDone_par (s : State) : (clearDone s).par = s.par := rfl
@[simp] theorem clearDone_rr (s : State) : (clearDone s).rr = s.rr := rfl
@[simp] theorem clearDone_cnt (s : State) : (clearDone s).cnt = s.cnt := rfl
@[simp] theorem clearDone_out (s : State) : (clearDone s).out = s.out := rfl
@[simp] theorem clearDone_done (s : State) : (clearDone s).done = false := rfl
@[simp] theorem clearDone_eoli (s : State) : (clearDone s).eoli = s.eoli := rfl
@[simp] theorem clearDone_inputs (s : State) : (clearDone s).inputs = s.inputs := rfl
@[simp] theorem clearDone_edges (s : State) : (clearDone s).edges = s.edges := rfl

@[simp] theorem startSegment_build (c : Ctl) (l : Bool) (d : Nat) (s : State) : (startSegment c l d s).build = s.build := rfl
@[simp] theorem startSegment_line (c : Ctl) (l : Bool) (d : Nat) (s : State) : (startSegment c l d s).line = s.line := rfl
@[simp] theorem startSegment_house (c : Ctl) (l : Bool) (d : Nat) (s : State) : (startSegment c l d s).house = s.house := rfl
@[simp] theorem startSegment_channel (c : Ctl) (l : Bool) (d : Nat) (s : State) : (startSegment c l d s).channel = s.channel := rfl
@[simp] theorem startSegment_rep (c : Ctl) (l : Bool) (d : Nat) (s : State) : (startSegment c l d s).rep = s.rep := rfl
@[simp] theorem startSegment_st (c : Ctl) (l : Bool) (d : Nat) (s : State) : (startSegment c l d s).st = c := rfl
@[simp] theorem startSegment_frame (c : Ctl) (l : Bool) (d : Nat) (s : State) : (startSegment c l d s).frame = s.frame := rfl
@[simp] theorem startSegment_bi (c : Ctl) (l : Bool) (d : Nat) (s : State) : (startSegment c l d s).bi = s.bi := rfl
@[simp] theorem startSegment_cur (c : Ctl) (l : Bool) (d : Nat) (s : State) : (startSegment c l d s).cur = s.cur := rfl
@[simp] theorem startSegment_par (c : Ctl) (l : Bool) (d : Nat) (s : State) : (startSegment c l d s).par = s.par := rfl
@[simp] theorem startSegment_rr (c : Ctl) (l : Bool) (d : Nat) (s : State) : (startSegment c l d s).rr = s.rr := rfl
@[simp] theorem startSegment_cnt (c : Ctl) (l : Bool) (d : Nat) (s : State) : (startSegment c l d s).cnt = loadCnt d := rfl
@[simp] theorem startSegment_out (c : Ctl) (l : Bool) (d : Nat) (s : State) : (startSegment c l d s).out = l := rfl
@[simp] theorem startSegment_done (c : Ctl) (l : Bool) (d : Nat) (s : State) : (startSegment c l d s).done = s.done := rfl
@[simp] theorem startSegment_eoli (c : Ctl) (l : Bool) (d : Nat) (s : State) : (startSegment c l d s).eoli = s.eoli := rfl
@[simp] theorem startSegment_inputs (c : Ctl) (l : Bool) (d : Nat) (s : State) : (startSegment c l d s).inputs = s.inputs := rfl
@[simp] theorem startSegment_edges (c : Ctl) (l : Bool) (d : Nat) (s : State) : (startSegment c l d s).edges = s.edges := rfl

@[simp] theorem loadSend_build (tag : Byte) (p : Payload) (s : State) : (loadSend tag p s).build = s.build := rfl
@[simp] theorem loadSend_line (tag : Byte) (p : Payload) (s : State) : (loadSend tag p s).line = s.line := rfl
@[simp] theorem loadSend_house (tag : Byte) (p : Payload) (s : State) : (loadSend tag p s).house = s.house := rfl
@[simp] theorem loadSend_channel (tag : Byte) (p : Payload) (s : State) : (loadSend tag p s).channel = s.channel := rfl
@[simp] theorem loadSend_rep (tag : Byte) (p : Payload) (s : State) : (loadSend tag p s).rep = s.rep := rfl
@[simp] theorem loadSend_st (tag : Byte) (p : Payload) (s : State) : (loadSend tag p s).st = s.st := rfl
@[simp] theorem loadSend_frame (tag : Byte) (p : Payload) (s : State) : (loadSend tag p s).frame = frameOf tag s.house s.channel p := rfl
@[simp] theorem loadSend_bi (tag : Byte) (p : Payload) (s : State) : (loadSend tag p s).bi = s.bi := rfl
@[simp] theorem loadSend_cur (tag : Byte) (p : Payload) (s : State) : (loadSend tag p s).cur = s.cur := rfl
@[simp] theorem loadSend_par (tag : Byte) (p : Payload) (s : State) : (loadSend tag p s).par = s.par := rfl
@[simp] theorem loadSend_rr (tag : Byte) (p : Payload) (s : State) : (loadSend tag p s).rr = effRepeat s := rfl
@[simp] theorem loadSend_cnt (tag : Byte) (p : Payload) (s : State) : (loadSend tag p s).cnt = s.cnt := rfl
@[simp] theorem loadSend_out (tag : Byte) (p : Payload) (s : State) : (loadSend tag p s).out = s.out := rfl
@[simp] theorem loadSend_done (tag : Byte) (p : Payload) (s : State) : (loadSend tag p s).done = false := rfl
@[simp] theorem loadSend_eoli (tag : Byte) (p : Payload) (s : State) : (loadSend tag p s).eoli = s.eoli := rfl
@[simp] theorem loadSend_inputs (tag : Byte) (p : Payload) (s : State) : (loadSend tag p s).inputs = s.inputs := rfl
@[simp] theorem loadSend_edges (tag : Byte) (p : Payload) (s : State) : (loadSend tag p s).edges = s.edges := rfl

@[simp] theorem resetEdge_build (s : State) : (resetEdge s).build = s.build := rfl
@[simp] theorem resetEdge_line (s : State) : (resetEdge s).line = 9 := rfl
@[simp] theorem resetEdge_house (s : State) : (resetEdge s).house = 0 := rfl
@[simp] theorem resetEdge_channel (s : State) : (resetEdge s).channel = 0 := rfl
@[simp] theorem resetEdge_rep (s : State) : (resetEdge s).rep = if s.build.diag then 1 else 4 := rfl
@[simp] theorem resetEdge_st (s : State) : (resetEdge s).st = .idle := rfl
@[simp] theorem resetEdge_frame (s : State) : (resetEdge s).frame = 0 := rfl
@[simp] theorem resetEdge_bi (s : State) : (resetEdge s).bi = 0 := rfl
@[simp] theorem resetEdge_cur (s : State) : (resetEdge s).cur = false := rfl
@[simp] theorem resetEdge_par (s : State) : (resetEdge s).par = false := rfl
@[simp] theorem resetEdge_rr (s : State) : (resetEdge s).rr = 0 := rfl
@[simp] theorem resetEdge_cnt (s : State) : (resetEdge s).cnt = 0 := rfl
@[simp] theorem resetEdge_out (s : State) : (resetEdge s).out = false := rfl
@[simp] theorem resetEdge_done (s : State) : (resetEdge s).done = false := rfl
@[simp] theorem resetEdge_eoli (s : State) : (resetEdge s).eoli = 0 := rfl
@[simp] theorem resetEdge_inputs (s : State) : (resetEdge s).inputs = s.inputs := rfl
@[simp] theorem resetEdge_edges (s : State) : (resetEdge s).edges = s.edges := rfl

@[simp] theorem startBit_build (i : BitVec 6) (s : State) : (startBit i s).build = s.build := rfl
@[simp] theorem startBit_line (i : BitVec 6) (s : State) : (startBit i s).line = s.line := rfl
@[simp] theorem startBit_house (i : BitVec 6) (s : State) : (startBit i s).house = s.house := rfl
@[simp] theorem startBit_channel (i : BitVec 6) (s : State) : (startBit i s).channel = s.channel := rfl
@[simp] theorem startBit_rep (i : BitVec 6) (s : State) : (startBit i s).rep = s.rep := rfl
@[simp] theorem startBit_st (i : BitVec 6) (s : State) : (startBit i s).st = .bitH := rfl
@[simp] theorem startBit_frame (i : BitVec 6) (s : State) : (startBit i s).frame = s.frame := rfl
@[simp] theorem startBit_bi (i : BitVec 6) (s : State) : (startBit i s).bi = i := rfl
@[simp] theorem startBit_cur (i : BitVec 6) (s : State) : (startBit i s).cur = bitValue s.frame s.par i := rfl
@[simp] theorem startBit_par (i : BitVec 6) (s : State) : (startBit i s).par = parNext s.frame s.par i := rfl
@[simp] theorem startBit_rr (i : BitVec 6) (s : State) : (startBit i s).rr = s.rr := rfl
@[simp] theorem startBit_cnt (i : BitVec 6) (s : State) : (startBit i s).cnt = loadCnt (bitHighUs s.build (bitValue s.frame s.par i)) := rfl
@[simp] theorem startBit_out (i : BitVec 6) (s : State) : (startBit i s).out = true := rfl
@[simp] theorem startBit_done (i : BitVec 6) (s : State) : (startBit i s).done = s.done := rfl
@[simp] theorem startBit_eoli (i : BitVec 6) (s : State) : (startBit i s).eoli = s.eoli := rfl
@[simp] theorem startBit_inputs (i : BitVec 6) (s : State) : (startBit i s).inputs = s.inputs := rfl
@[simp] theorem startBit_edges (i : BitVec 6) (s : State) : (startBit i s).edges = s.edges := rfl

@[simp] theorem startSync_build (s : State) : (startSync s).build = s.build := rfl
@[simp] theorem startSync_line (s : State) : (startSync s).line = s.line := rfl
@[simp] theorem startSync_house (s : State) : (startSync s).house = s.house := rfl
@[simp] theorem startSync_channel (s : State) : (startSync s).channel = s.channel := rfl
@[simp] theorem startSync_rep (s : State) : (startSync s).rep = s.rep := rfl
@[simp] theorem startSync_st (s : State) : (startSync s).st = .syncH := rfl
@[simp] theorem startSync_frame (s : State) : (startSync s).frame = s.frame := rfl
@[simp] theorem startSync_bi (s : State) : (startSync s).bi = s.bi := rfl
@[simp] theorem startSync_cur (s : State) : (startSync s).cur = s.cur := rfl
@[simp] theorem startSync_par (s : State) : (startSync s).par = s.par := rfl
@[simp] theorem startSync_rr (s : State) : (startSync s).rr = s.rr := rfl
@[simp] theorem startSync_cnt (s : State) : (startSync s).cnt = loadCnt (shortUs s.build) := rfl
@[simp] theorem startSync_out (s : State) : (startSync s).out = true := rfl
@[simp] theorem startSync_done (s : State) : (startSync s).done = s.done := rfl
@[simp] theorem startSync_eoli (s : State) : (startSync s).eoli = s.eoli := rfl
@[simp] theorem startSync_inputs (s : State) : (startSync s).inputs = s.inputs := rfl
@[simp] theorem startSync_edges (s : State) : (startSync s).edges = s.edges := rfl

end Sys2Proof.Machine
end

