-- ==== Sys2Proof/Laws/Step.lean ====
section
/-!
SUPPORT. Everything a step can do, said once: the three ways an edge answers a next state, forward and inverted, and what
a command does where the block is ready and where it is not.
-/

namespace Sys2Proof.Machine

@[simp] theorem inputsAt_cons (s : State) (p : Inputs) (ps : List Inputs) :
    inputsAt { s with inputs := p :: ps } = p := rfl

theorem inputsAt_of_cons {s : State} {p : Inputs} {ps : List Inputs} (h : s.inputs = p :: ps) :
    inputsAt s = p := by
  simp [inputsAt, h]

theorem cmdReady_iff (s : State) : cmdReady s = true ↔ s.st = .idle := by
  simp [cmdReady]

@[simp] theorem cmdReady_advance (s : State) : cmdReady (advance s) = cmdReady s := rfl

theorem whenReady_idle {s : State} (h : s.st = .idle) (t : State) : whenReady s t = .next t := by
  simp [whenReady, cmdReady, h]

theorem whenReady_busy {s : State} (h : s.st ≠ .idle) (t : State) : whenReady s t = .next s := by
  simp [whenReady, cmdReady, h]

/-- Legality reads the build, `ST`, `BI` and `EOLI` alone. -/
theorem legal_congr {s t : State} (hb : t.build = s.build) (hs : t.st = s.st) (hi : t.bi = s.bi)
    (he : t.eoli = s.eoli) : t.legal = s.legal := by
  simp [State.legal, hb, hs, hi, he]

theorem legal_iff (s : State) :
    s.legal = true ↔ ctlLegal s.build.diag s.st = true ∧ s.bi.toNat ≤ 49 ∧ s.eoli < s.build.diagEol.length := by
  simp [State.legal, and_assoc]

/-- In a legal state `ST` is a state of the build. -/
theorem legal_ctl {s : State} (h : s.legal = true) {c : Ctl} (hc : s.st = c) :
    ctlLegal s.build.diag c = true :=
  hc ▸ ((legal_iff s).mp h).1

/-- A reset edge (70_reset_and_hazards.md R145). -/
theorem step_reset {s : State} (hb : buildLegal s.build = true) (hr : (inputsAt s).rst = true) :
    step s = .next (resetEdge (advance s)) := by
  simp [step, hb, hr]

/-- An accepting edge (20_memory.md R50). -/
theorem step_accept {s : State} (h : edgeOpen s) (ha : accepting (inputsAt s) s = true) :
    step s = exec (decode (inputsAt s).cmdWord) (advance s) := by
  simp [step, h.1, h.2.1, h.2.2, ha]

/-- An edge at which neither reset nor command is taken. -/
theorem step_run {s : State} (h : edgeOpen s) (ha : accepting (inputsAt s) s = false) :
    step s = .next (runEdge (inputsAt s) (advance s)) := by
  simp [step, h.1, h.2.1, h.2.2, ha]

/-- A busy block's edge is its state machine's, whatever the command port shows (R52). -/
theorem step_busy {s : State} (h : edgeOpen s) (hs : s.st ≠ .idle) :
    step s = .next (runEdge (inputsAt s) (advance s)) :=
  step_run h (by simp [accepting, cmdReady, hs])

/-- The ways a step answers a next state: a reset, an accepted command, or the build's own edge. -/
theorem step_cases {s t : State} (h : step s = .next t) :
    buildLegal s.build = true ∧
    (((inputsAt s).rst = true ∧ t = resetEdge (advance s)) ∨
     ((inputsAt s).rst = false ∧ s.legal = true ∧ s.st = .idle ∧ (inputsAt s).cmdValid = true ∧
        exec (decode (inputsAt s).cmdWord) (advance s) = .next t) ∨
     ((inputsAt s).rst = false ∧ s.legal = true ∧ accepting (inputsAt s) s = false ∧
        t = runEdge (inputsAt s) (advance s))) := by
  unfold step at h
  split at h
  · cases h
  · next hb =>
    refine ⟨by simpa using hb, ?_⟩
    split at h
    · next hr => exact .inl ⟨hr, by cases h; rfl⟩
    · next hr =>
      split at h
      · cases h
      · next hl =>
        have hr' : (inputsAt s).rst = false := by simpa using hr
        have hl' : s.legal = true := by simpa using hl
        split at h
        · next ha =>
          simp only [accepting, Bool.and_eq_true, cmdReady_iff] at ha
          exact .inr (.inl ⟨hr', hl', ha.2, ha.1, h⟩)
        · next ha => exact .inr (.inr ⟨hr', hl', by simpa using ha, by cases h; rfl⟩)

/-- What a command leads to where the block is ready: a send is loaded with a tag of at most 5, or a configuration
register is written, or nothing is; in every case `DONE` is 0. -/
inductive Taken (s : State) : Instr → State → Prop where
  | send {i} (tag : Byte) (p : Payload) (h : tag.toNat ≤ 5) : Taken s i (acceptSend tag p s)
  | setLine (l : Byte) : Taken s (.setLine l) { clearDone s with line := l }
  | setAddress (h c : Byte) :
      Taken s (.setAddress h c) { clearDone s with house := houseBits h, channel := channelBits c }
  | setRepeat (n : Byte) : Taken s (.setRepeat n) { clearDone s with rep := n }
  | reserved (op : Byte) : Taken s (.reserved op) (clearDone s)

/-- A ready block takes every command. -/
theorem exec_idle (i : Instr) {s : State} (h : s.st = .idle) : ∃ t, exec i s = .next t ∧ Taken s i t := by
  cases i with
  | sendB00 f => exact ⟨_, whenReady_idle h _, .send _ _ (by decide)⟩
  | sendB01 v => exact ⟨_, whenReady_idle h _, .send _ _ (by decide)⟩
  | sendB02 u => exact ⟨_, whenReady_idle h _, .send _ _ (by decide)⟩
  | sendB03 a b => exact ⟨_, whenReady_idle h _, .send _ _ (by decide)⟩
  | sendB04 a b => exact ⟨_, whenReady_idle h _, .send _ _ (by decide)⟩
  | sendB05 a b c d => exact ⟨_, whenReady_idle h _, .send _ _ (by decide)⟩
  | setLine l => exact ⟨_, whenReady_idle h _, .setLine l⟩
  | setAddress x c => exact ⟨_, whenReady_idle h _, .setAddress x c⟩
  | setRepeat n => exact ⟨_, whenReady_idle h _, .setRepeat n⟩
  | reserved op => exact ⟨_, whenReady_idle h _, .reserved op⟩

/-- The inversion of `exec_idle`. -/
theorem exec_taken {i : Instr} {s t : State} (h : s.st = .idle) (he : exec i s = .next t) : Taken s i t := by
  obtain ⟨u, hu, ht⟩ := exec_idle i h
  cases hu.symm.trans he
  exact ht

/-- A ready block takes a word whose opcode is a send's as the send of that tag (30_encoding.md R66, R68). -/
theorem exec_decode_send {w : CmdWord} (hw : (opcodeField w).toNat ≤ 5) {s : State} (h : s.st = .idle) :
    ∃ p, exec (decode w) s = .next (acceptSend (opcodeField w) p s) := by
  have hop : ∀ op : Byte, op.toNat ≤ 5 → op = 0 ∨ op = 1 ∨ op = 2 ∨ op = 3 ∨ op = 4 ∨ op = 5 := by decide
  rcases hop _ hw with ho | ho | ho | ho | ho | ho <;> simp only [decode, ho] <;> exact ⟨_, whenReady_idle h _⟩

/-- The two builds' accepting edges of a send (40_send_commands.md R74; 43_diagnostic_mode.md R119). -/
theorem acceptSend_transmit {s : State} (h : s.build.diag = false) (tag : Byte) (p : Payload) :
    acceptSend tag p s = { loadSend tag p s with st := .arm } := by
  simp [acceptSend, h]

theorem acceptSend_diag {s : State} (h : s.build.diag = true) (tag : Byte) (p : Payload) :
    acceptSend tag p s = { loadSend tag p s with st := .dBit, bi := 49, par := false, eoli := 0 } := by
  simp [acceptSend, h]

theorem runEdge_transmit {s : State} (h : s.build.diag = false) (p : Inputs) :
    runEdge p s = transmitEdge p s := by
  simp [runEdge, h]

theorem runEdge_diag {s : State} (h : s.build.diag = true) (p : Inputs) : runEdge p s = diagEdge p s := by
  simp [runEdge, h]

theorem advance_build_diag (s : State) : (advance s).build.diag = s.build.diag := rfl

/-- A legal transmit build's edge in a state of its own (42_pulse_serializer.md R112). -/
theorem step_transmit {s : State} (h : edgeOpen s) (hd : s.build.diag = false) (hs : s.st ≠ .idle) :
    step s = .next (transmitEdge (inputsAt s) (advance s)) := by
  rw [step_busy h hs, runEdge_transmit ((advance_build_diag s).trans hd)]

/-- A legal diagnostic build's edge in a state of its own (43_diagnostic_mode.md R126). -/
theorem step_diag {s : State} (h : edgeOpen s) (hd : s.build.diag = true) (hs : s.st ≠ .idle) :
    step s = .next (diagEdge (inputsAt s) (advance s)) := by
  rw [step_busy h hs, runEdge_diag ((advance_build_diag s).trans hd)]

/-- An idle block with no command presented holds (42_pulse_serializer.md R105). -/
theorem step_idle_hold {s : State} (h : edgeOpen s) (hs : s.st = .idle) (hv : (inputsAt s).cmdValid = false) :
    step s = .next (clearDone (advance s)) := by
  rw [step_run h (by simp [accepting, hv])]
  cases hd : s.build.diag with
  | false =>
    rw [runEdge_transmit ((advance_build_diag s).trans hd)]
    cases ht : (inputsAt s).usTick <;> simp [transmitEdge, ht, tickEdge, hs]
  | true =>
    rw [runEdge_diag ((advance_build_diag s).trans hd)]
    cases ht : (inputsAt s).diagReady <;> simp [diagEdge, ht, transferEdge, hs]

/-- A guarded decrement, as the spec writes it (10_state.md R42): it does not wrap. -/
theorem ofNat_pred {w : Nat} (v : BitVec w) (h : v ≠ 0) : BitVec.ofNat w (v.toNat - 1) = v - 1 := by
  have hv := v.isLt
  have h0 : v.toNat ≠ 0 := fun e => h (BitVec.eq_of_toNat_eq (by simpa using e))
  have hw : 1 < 2 ^ w := by omega
  apply BitVec.eq_of_toNat_eq
  have h1 : BitVec.toNat (1 : BitVec w) = 1 := Nat.mod_eq_of_lt hw
  rw [BitVec.toNat_ofNat, BitVec.toNat_sub, h1, Nat.mod_eq_of_lt (by omega),
    show 2 ^ w - 1 + v.toNat = v.toNat - 1 + 2 ^ w by omega, Nat.add_mod_right, Nat.mod_eq_of_lt (by omega)]

theorem toNat_pred {w : Nat} (v : BitVec w) (h : v ≠ 0) : (v - 1).toNat = v.toNat - 1 := by
  rw [← ofNat_pred v h, BitVec.toNat_ofNat, Nat.mod_eq_of_lt (by have := v.isLt; omega)]

/-- `CNT` holds every legal duration less one (10_state.md R35, R42). -/
theorem loadCnt_toNat {d : Nat} (h : d ≤ delayMaxUs) : (loadCnt d).toNat = d - 1 := by
  unfold delayMaxUs at h
  simp only [loadCnt, BitVec.toNat_ofNat]
  omega

/-- The durations of a legal build (00_scope.md R9). -/
theorem buildLegal_iff (b : Build) :
    buildLegal b = true ↔ 1 ≤ b.shortUs ∧ 31 * b.shortUs ≤ delayMaxUs ∧ b.diagEol ≠ [] := by
  simp only [buildLegal, Bool.and_eq_true, decide_eq_true_eq]
  simp only [shortUs, longUs, syncUs, and_assoc]
  constructor
  · rintro ⟨h1, _, _, h2, h3⟩
    exact ⟨h1, h2, h3⟩
  · rintro ⟨h1, h2, h3⟩
    exact ⟨h1, by omega, by omega, h2, h3⟩

/-! ### Runs -/

theorem runFor_one {s t : State} (h : step s = .next t) : runFor 1 s = .next t := by
  simp [runFor, h]

theorem runFor_step {s t : State} (h : step s = .next t) (n : Nat) : runFor (n + 1) s = runFor n t := by
  simp [runFor, h]

/-- A run is a run followed by a run. -/
theorem runFor_add {s t : State} {n : Nat} (h : runFor n s = .next t) (m : Nat) : runFor (n + m) s = runFor m t := by
  induction n generalizing s with
  | zero => cases h; rw [Nat.zero_add]
  | succ n ih =>
    rw [Nat.add_right_comm]
    cases hs : step s with
    | next u =>
      rw [runFor_step hs] at h ⊢
      exact ih h
    | fault r => simp [runFor, hs] at h
    | refused r => simp [runFor, hs] at h

/-- What is seen on the line over a run, and then over the run that follows it. -/
theorem lineTrace_add {s t : State} {n : Nat} (h : runFor n s = .next t) (m : Nat) :
    lineTrace (n + m) s = lineTrace n s ++ lineTrace m t := by
  induction n generalizing s with
  | zero => cases h; rw [Nat.zero_add]; rfl
  | succ n ih =>
    rw [Nat.add_right_comm]
    cases hs : step s with
    | next u =>
      rw [runFor_step hs] at h
      simp only [lineTrace, hs, ih h]
      split <;> simp
    | fault r => simp [runFor, hs] at h
    | refused r => simp [runFor, hs] at h

/-- What the text sink takes over a run, and then over the run that follows it. -/
theorem textTrace_add {s t : State} {n : Nat} (h : runFor n s = .next t) (m : Nat) :
    textTrace (n + m) s = textTrace n s ++ textTrace m t := by
  induction n generalizing s with
  | zero => cases h; rw [Nat.zero_add]; rfl
  | succ n ih =>
    rw [Nat.add_right_comm]
    cases hs : step s with
    | next u =>
      rw [runFor_step hs] at h
      simp only [textTrace, hs, ih h]
      split <;> simp
    | fault r => simp [runFor, hs] at h
    | refused r => simp [runFor, hs] at h

end Sys2Proof.Machine
end

