-- ==== Sys2Proof/Laws/Burst.lean ====
section
/-!
SUPPORT. The line over a run, segment by segment: a segment shows its level for its duration whatever edges without a tick
stand between the ticks (42_pulse_serializer.md R104), and runs of segments join. These are the steps from the clocked state
machine to the waveform (R113).
-/

namespace Sys2Proof.Machine

/-- The state with the environment's part given: these inputs to come, after `e` edges. -/
def withEnv (s : State) (ps : List Inputs) (e : Nat) : State := { s with inputs := ps, edges := e }

/-- Over any edges without reset with exactly `n` tick edges, the last of them one, the block goes from `s` to `s'`. -/
def Reaches (n : Nat) (s s' : State) : Prop :=
  ∀ ps rest e, endsAtTick n ps →
    runFor ps.length (withEnv s (ps ++ rest) e) = .next (withEnv s' rest (e + ps.length))

/-- From `s`, at the start of the first of these segments, to `s'`, at the edge that ends the last: the line, sampled
after each tick edge from the one that reached `s`, is the segments and then the level of `s'`. -/
def Shows (segs : List Segment) (s s' : State) : Prop :=
  Reaches (durationUs segs) s s' ∧
  ∀ ps rest e, endsAtTick (durationUs segs) ps →
    s.out :: lineTrace ps.length (withEnv s (ps ++ rest) e) = levels segs ++ [s'.out]

/-- A busy transmit block that the rules speak of, `DONE` being 0 as it is while a send runs. -/
structure Busy (s : State) : Prop where
  build : buildLegal s.build = true
  legal : s.legal = true
  transmit : s.build.diag = false
  busy : s.st ≠ .idle
  notDone : s.done = false

theorem tickCount_append (ps qs : List Inputs) : tickCount (ps ++ qs) = tickCount ps + tickCount qs := by
  simp [tickCount]

/-- A run of `m + n` ticks is a run of `m` ticks and a run of `n`. -/
theorem endsAtTick_split {m n : Nat} (hm : 0 < m) (hn : 0 < n) {ps : List Inputs} (h : endsAtTick (m + n) ps) :
    ∃ qs rs, ps = qs ++ rs ∧ endsAtTick m qs ∧ endsAtTick n rs := by
  obtain ⟨hr, hc, hl⟩ := h
  induction ps generalizing m with
  | nil => simp [tickCount] at hc; omega
  | cons p ps ih =>
    have hps : ps ≠ [] := by
      rintro rfl
      simp only [tickCount, List.countP_cons, List.countP_nil] at hc
      split at hc <;> omega
    have hl' : ps.getLast?.map Inputs.usTick = some true := by
      rwa [List.getLast?_cons, List.getLast?_eq_some_getLast hps, Option.getD_some,
        ← List.getLast?_eq_some_getLast hps] at hl
    have hr' : ∀ q ∈ ps, q.rst = false := fun q hq => hr q (List.mem_cons_of_mem _ hq)
    have hp : p.rst = false := hr p List.mem_cons_self
    by_cases ht : p.usTick = true
    · have hc' : tickCount ps + 1 = m + n := by simpa [tickCount, ht] using hc
      rcases Nat.eq_or_lt_of_le (show 1 ≤ m from hm) with rfl | h1
      · exact ⟨[p], ps, rfl, ⟨by simpa using hp, by simp [tickCount, ht], by simp [ht]⟩, hr', by omega, hl'⟩
      · obtain ⟨qs, rs, rfl, ⟨hq1, hq2, hq3⟩, hrs⟩ := ih (m := m - 1) (by omega) hr' (by omega) hl'
        refine ⟨p :: qs, rs, rfl, ⟨?_, ?_, ?_⟩, hrs⟩
        · simpa using ⟨hp, hq1⟩
        · simp only [tickCount, List.countP_cons, ht, if_true] at hq2 ⊢; omega
        · cases qs with
          | nil => simp at hq3
          | cons q qs => simpa [List.getLast?_cons_cons] using hq3
    · have hc' : tickCount ps = m + n := by simpa [tickCount, ht] using hc
      obtain ⟨qs, rs, rfl, ⟨hq1, hq2, hq3⟩, hrs⟩ := ih hm hr' hc' hl'
      refine ⟨p :: qs, rs, rfl, ⟨?_, ?_, ?_⟩, hrs⟩
      · simpa using ⟨hp, hq1⟩
      · simpa [tickCount, ht] using hq2
      · cases qs with
        | nil => simp at hq3
        | cons q qs => simpa [List.getLast?_cons_cons] using hq3

theorem durationUs_append (a b : List Segment) : durationUs (a ++ b) = durationUs a + durationUs b := by
  simp [durationUs]

theorem levels_append (a b : List Segment) : levels (a ++ b) = levels a ++ levels b := by
  simp [levels]

/-- Runs of segments join. -/
theorem Shows.append {a b : List Segment} {s s' s'' : State} (ha : 0 < durationUs a) (hb : 0 < durationUs b)
    (h : Shows a s s') (h' : Shows b s' s'') : Shows (a ++ b) s s'' := by
  refine ⟨fun ps rest e hps => ?_, fun ps rest e hps => ?_⟩
  all_goals
    rw [durationUs_append] at hps
    obtain ⟨qs, rs, rfl, hq, hr⟩ := endsAtTick_split ha hb hps
    have h1 := h.1 qs (rs ++ rest) e hq
    rw [List.append_assoc, List.length_append]
  · rw [runFor_add h1, h'.1 rs rest _ hr, Nat.add_assoc]
  · rw [lineTrace_add h1, ← List.cons_append, h.2 qs (rs ++ rest) e hq, List.append_assoc, List.singleton_append,
      h'.2 rs rest _ hr, levels_append, List.append_assoc]

/-- The state machine reads and writes nothing of the environment's part. -/
theorem tickEdge_withEnv (s : State) (ps : List Inputs) (e : Nat) :
    tickEdge (withEnv s ps e) = withEnv (tickEdge s) ps e := by
  have hcount : ∀ t : State, countOr (withEnv s ps e) (withEnv t ps e) = withEnv (countOr s t) ps e := by
    intro t
    unfold countOr
    by_cases h : s.cnt = 0
    · rw [if_pos h, if_pos (show (withEnv s ps e).cnt = 0 from h)]
    · rw [if_neg h, if_neg (show (withEnv s ps e).cnt ≠ 0 from h)]; rfl
  have hsync : endSync (withEnv s ps e) = withEnv (endSync s) ps e := by
    unfold endSync
    by_cases h : s.rr = 0
    · rw [if_pos h, if_pos (show (withEnv s ps e).rr = 0 from h)]; rfl
    · rw [if_neg h, if_neg (show (withEnv s ps e).rr ≠ 0 from h)]; rfl
  have hbit : endBit (withEnv s ps e) = withEnv (endBit s) ps e := by
    unfold endBit
    by_cases h : s.bi = 0
    · rw [if_pos h, if_pos (show (withEnv s ps e).bi = 0 from h)]; rfl
    · rw [if_neg h, if_neg (show (withEnv s ps e).bi ≠ 0 from h)]; rfl
  unfold tickEdge
  rw [show (withEnv s ps e).st = s.st from rfl]
  cases s.st
  case syncL => exact (congrArg _ hsync).trans (hcount _)
  case bitL => exact (congrArg _ hbit).trans (hcount _)
  case syncH => exact hcount (startSegment .syncL false (syncUs s.build) s)
  case bitH => exact hcount (startSegment .bitL false (bitLowUs s.build s.cur) s)
  all_goals rfl

theorem step_withEnv_busy {s : State} (h : Busy s) {p : Inputs} (ps : List Inputs) (e : Nat) (hp : p.rst = false) :
    step (withEnv s (p :: ps) e) = .next (withEnv (if p.usTick then tickEdge s else s) ps (e + 1)) := by
  have ho : edgeOpen (withEnv s (p :: ps) e) :=
    ⟨h.build, (legal_congr rfl rfl rfl rfl).trans h.legal, hp⟩
  have hs : clearDone (advance (withEnv s (p :: ps) e)) = withEnv s ps (e + 1) := by
    have hd := h.notDone
    cases s
    simp only at hd
    subst hd
    rfl
  rw [step_transmit ho h.transmit h.busy, transmitEdge, hs]
  cases ht : p.usTick
  · rw [if_neg (by rw [inputsAt_of_cons rfl, ht]; simp), if_neg (by simp)]
  · rw [if_pos (by rw [inputsAt_of_cons rfl, ht]), if_pos rfl, tickEdge_withEnv]

/-- One tick edge, with any edges before it that are none: it is the state machine's tick. -/
theorem reaches_tick {s : State} (h : Busy s) : Reaches 1 s (tickEdge s) ∧
    ∀ ps rest e, endsAtTick 1 ps → lineTrace ps.length (withEnv s (ps ++ rest) e) = [(tickEdge s).out] := by
  constructor
  all_goals
    intro ps rest e hps
    obtain ⟨hr, hc, hl⟩ := hps
    induction ps generalizing e with
    | nil => simp at hl
    | cons p ps ih =>
      have hp : p.rst = false := hr p List.mem_cons_self
      have hst := step_withEnv_busy h (ps ++ rest) e hp
      by_cases ht : p.usTick = true
      · have hc0 : tickCount ps = 0 := by simpa [tickCount, ht] using hc
        have hps : ps = [] := by
          by_contra hne
          rw [List.getLast?_cons, List.getLast?_eq_some_getLast hne, Option.getD_some] at hl
          have := (List.countP_eq_zero.mp hc0) (ps.getLast hne) (List.getLast_mem hne)
          simp_all
        subst hps
        rw [ht, if_pos rfl] at hst
        first
          | (rw [List.length_cons, List.cons_append, runFor_step hst]; rfl)
          | (simp only [List.length_cons, List.cons_append, lineTrace, hst, List.length_nil]
             rw [if_pos (show (inputsAt (withEnv s (p :: ([] ++ rest)) e)).usTick = true from ht)]
             rfl)
      · have hc' : tickCount ps = 1 := by simpa [tickCount, ht] using hc
        have hps : ps ≠ [] := by rintro rfl; simp [tickCount] at hc'
        have hl' : ps.getLast?.map Inputs.usTick = some true := by
          rwa [List.getLast?_cons, List.getLast?_eq_some_getLast hps, Option.getD_some,
            ← List.getLast?_eq_some_getLast hps] at hl
        have ih' := ih (e + 1) (fun q hq => hr q (List.mem_cons_of_mem _ hq)) hc' hl'
        rw [if_neg ht] at hst
        first
          | (rw [List.length_cons, List.cons_append, runFor_step hst, ih', Nat.add_right_comm, Nat.add_assoc])
          | (simp only [List.length_cons, List.cons_append, lineTrace, hst]
             rw [if_neg (show ¬ (inputsAt (withEnv s (p :: (ps ++ rest)) e)).usTick = true from ht)]
             exact ih')

/-- A segment with `n` ticks left shows its level while it counts them, and ends at one more. -/
theorem shows_count {s s' : State} (h : Busy s) (hseg : s.st ∈ [Ctl.syncH, .syncL, .bitH, .bitL])
    (hend : tickEdge { s with cnt := 0 } = s') (n : Nat) (hn : s.cnt.toNat = n) :
    Shows [⟨s.out, n + 1⟩] s s' := by
  induction n generalizing s with
  | zero =>
    have hc : s.cnt = 0 := BitVec.eq_of_toNat_eq (by simpa using hn)
    have hs : ({ s with cnt := 0 } : State) = s := by rw [← hc]
    rw [hs] at hend
    obtain ⟨h1, h2⟩ := reaches_tick h
    subst hend
    exact ⟨by simpa [durationUs] using h1, fun ps rest e hps => by
      rw [h2 ps rest e (by simpa [durationUs] using hps)]; simp [levels]⟩
  | succ n ih =>
    have hc : s.cnt ≠ 0 := by rintro h0; rw [h0] at hn; simp at hn
    have hstep : tickEdge s = { s with cnt := s.cnt - 1 } := by
      simp only [List.mem_cons, List.not_mem_nil, or_false] at hseg
      rcases hseg with hs | hs | hs | hs <;> simp only [tickEdge, hs, countOr, if_neg hc]
    have hb : Busy { s with cnt := s.cnt - 1 } :=
      ⟨h.build, (legal_congr rfl rfl rfl rfl).trans h.legal, h.transmit, h.busy, h.notDone⟩
    have hnext := ih (s := { s with cnt := s.cnt - 1 }) hb hseg hend (by rw [toNat_pred _ hc]; omega)
    obtain ⟨h1, h2⟩ := reaches_tick h
    rw [hstep] at h1 h2
    have hone : Shows [⟨s.out, 1⟩] s { s with cnt := s.cnt - 1 } :=
      ⟨by simpa [durationUs] using h1, fun ps rest e hps => by
        rw [h2 ps rest e (by simpa [durationUs] using hps)]; simp [levels]⟩
    have hjoin := Shows.append (by simp [durationUs]) (by simp [durationUs]) hone hnext
    have hd : durationUs ([⟨s.out, 1⟩] ++ [⟨s.out, n + 1⟩]) = durationUs [⟨s.out, n + 1 + 1⟩] := by
      simp [durationUs, Nat.add_comm]
    have hv : levels ([⟨s.out, 1⟩] ++ [⟨s.out, n + 1⟩]) = levels [⟨s.out, n + 1 + 1⟩] := by
      simp [levels, List.replicate_succ]
    rw [Shows, hd, hv] at hjoin
    exact hjoin

/-- A segment that starts shows its level for exactly its duration (R104). -/
theorem shows_segment {s s' : State} {c : Ctl} {l : Bool} {d : Nat} (hd0 : 1 ≤ d) (hd : d ≤ delayMaxUs)
    (h : Busy (startSegment c l d s)) (hseg : c ∈ [Ctl.syncH, .syncL, .bitH, .bitL])
    (hend : tickEdge { startSegment c l d s with cnt := 0 } = s') :
    Shows [⟨l, d⟩] (startSegment c l d s) s' := by
  have := shows_count h hseg hend (d - 1) (by rw [startSegment_cnt, loadCnt_toNat hd])
  rwa [startSegment_out, Nat.sub_add_cancel hd0] at this

end Sys2Proof.Machine
end

