-- ==== Sys2Proof/Laws/Decode.lean ====
section
/-!
SUPPORT. Bit-level lemmas of the encoding: a word is its opcode and its data, and the two halves and the four bytes of
`DATA` put together again are `DATA` (30_encoding.md R60-R62; 40_send_commands.md R75).
-/

namespace Sys2Proof

/-- Bit `i` of a word put together from its opcode and its data (R60). -/
theorem cmdOf_getLsbD (op : Byte) (data : Payload) (i : Nat) :
    (cmdOf op data).getLsbD i = if i < 32 then data.getLsbD i else op.getLsbD (i - 32) := by
  rw [cmdOf, BitVec.getLsbD_append]

@[simp] theorem opcodeField_cmdOf (op : Byte) (data : Payload) : opcodeField (cmdOf op data) = op := by
  apply BitVec.eq_of_getLsbD_eq
  intro i hi
  simp [opcodeField, cmdOf_getLsbD, hi]

@[simp] theorem dataField_cmdOf (op : Byte) (data : Payload) : dataField (cmdOf op data) = data := by
  apply BitVec.eq_of_getLsbD_eq
  intro i hi
  simp [dataField, cmdOf_getLsbD, hi]

/-- A word is its opcode and its data (R60). -/
theorem cmdOf_fields (w : CmdWord) : cmdOf (opcodeField w) (dataField w) = w := by
  apply BitVec.eq_of_getLsbD_eq
  intro i hi
  rw [cmdOf_getLsbD, opcodeField, dataField]
  split
  · next h => simp [h]
  · next h => simp [show 32 + (i - 32) = i by omega, show i - 32 < 8 by omega]

/-- Bit `i` of two operand halves put together. -/
theorem halves_getLsbD (a b : Half) (i : Nat) :
    (a ++ b : Payload).getLsbD i = if i < 16 then b.getLsbD i else a.getLsbD (i - 16) := by
  rw [BitVec.getLsbD_append]

/-- The operand halves of a word are its data (R62). -/
theorem dataHalves (w : CmdWord) : dataHigh w ++ dataLow w = dataField w := by
  apply BitVec.eq_of_getLsbD_eq
  intro i hi
  rw [halves_getLsbD, dataHigh, dataLow, dataField]
  split
  · next h => simp [h, hi]
  · next h => simp [show 16 + (i - 16) = i by omega, show i - 16 < 16 by omega, hi]

/-- Bit `i` of four operand bytes put together. -/
theorem bytes_getLsbD (a b c d : Byte) (i : Nat) :
    (a ++ b ++ c ++ d : Payload).getLsbD i =
      if i < 8 then d.getLsbD i else if i < 16 then c.getLsbD (i - 8)
      else if i < 24 then b.getLsbD (i - 16) else a.getLsbD (i - 24) := by
  rw [BitVec.getLsbD_append, BitVec.getLsbD_append, BitVec.getLsbD_append]
  by_cases h1 : i < 8
  · simp [h1]
  · by_cases h2 : i < 16
    · simp [h1, h2, show i - 8 < 8 by omega]
    · by_cases h3 : i < 24
      · simp [h1, h2, h3, show ¬ i - 8 < 8 by omega, show i - 8 - 8 = i - 16 by omega, show i - 16 < 8 by omega]
      · simp [h1, h2, h3, show ¬ i - 8 < 8 by omega, show ¬ i - 8 - 8 < 8 by omega,
          show i - 8 - 8 - 8 = i - 24 by omega]

/-- The operand bytes of a word are its data (R62). -/
theorem dataBytes (w : CmdWord) :
    dataByte w 3 ++ dataByte w 2 ++ dataByte w 1 ++ dataByte w 0 = dataField w := by
  apply BitVec.eq_of_getLsbD_eq
  intro i hi
  rw [bytes_getLsbD]
  simp only [dataByte, dataField, BitVec.getLsbD_extractLsb']
  split
  · next h => simp [h, hi]
  · split
    · next h => simp [show 8 + (i - 8) = i by omega, show i - 8 < 8 by omega, hi]
    · split
      · next h => simp [show 16 + (i - 16) = i by omega, show i - 16 < 8 by omega, hi]
      · next h => simp [show 24 + (i - 24) = i by omega, show i - 24 < 8 by omega, hi]

namespace Machine

/-- Two 16-bit operands are packed by juxtaposition (R79, R80). -/
theorem packPair_append (a b : Half) : packPair a b = a ++ b := by
  apply BitVec.eq_of_getLsbD_eq
  intro i hi
  rw [halves_getLsbD]
  by_cases h : i < 16
  · simp [packPair, h, hi]
  · simp [packPair, h, hi, BitVec.getLsbD_of_ge b i (by omega)]

/-- Four bytes are packed by juxtaposition (R81). -/
theorem packB05_append (a b c d : Byte) : packB05 a b c d = a ++ b ++ c ++ d := by
  apply BitVec.eq_of_getLsbD_eq
  intro i hi
  rw [bytes_getLsbD]
  by_cases h1 : i < 8
  · simp [packB05, hi, h1, show i < 16 by omega, show i < 24 by omega]
  · by_cases h2 : i < 16
    · simp [packB05, hi, h1, h2, show i < 24 by omega, BitVec.getLsbD_of_ge d i (by omega)]
    · by_cases h3 : i < 24
      · simp [packB05, hi, h1, h2, h3, BitVec.getLsbD_of_ge d i (by omega),
          BitVec.getLsbD_of_ge c (i - 8) (by omega)]
      · simp [packB05, hi, h1, h2, h3, BitVec.getLsbD_of_ge d i (by omega),
          BitVec.getLsbD_of_ge c (i - 8) (by omega), BitVec.getLsbD_of_ge b (i - 16) (by omega)]

/-- The place of each field in a frame (30_encoding.md R57, one position lower than in the codeword). -/
theorem frameOf_getLsbD (t : Byte) (h : BitVec 2) (c : BitVec 3) (p : Payload) (i : Nat) :
    (frameOf t h c p).getLsbD i =
      if i < 32 then p.getLsbD i else if i < 35 then c.getLsbD (i - 32) else if i < 37 then h.getLsbD (i - 35)
      else if i < 45 then t.getLsbD (i - 37) else announce.getLsbD (i - 45) := by
  rw [frameOf, BitVec.getLsbD_append, BitVec.getLsbD_append, BitVec.getLsbD_append, BitVec.getLsbD_append]
  by_cases h1 : i < 32
  · simp [h1]
  · by_cases h2 : i < 35
    · simp [h1, h2, show i - 32 < 3 by omega]
    · by_cases h3 : i < 37
      · simp [h1, h2, h3, show ¬ i - 32 < 3 by omega, show i - 32 - 3 = i - 35 by omega, show i - 35 < 2 by omega]
      · by_cases h4 : i < 45
        · simp [h1, h2, h3, h4, show ¬ i - 32 < 3 by omega, show i - 32 - 3 = i - 35 by omega,
            show ¬ i - 35 < 2 by omega, show i - 35 - 2 = i - 37 by omega, show i - 37 < 8 by omega]
        · simp [h1, h2, h3, h4, show ¬ i - 32 < 3 by omega, show i - 32 - 3 = i - 35 by omega,
            show ¬ i - 35 < 2 by omega, show i - 35 - 2 = i - 37 by omega, show ¬ i - 37 < 8 by omega,
            show i - 37 - 8 = i - 45 by omega]

@[simp] theorem frameTag_frameOf (t : Byte) (h : BitVec 2) (c : BitVec 3) (p : Payload) :
    frameTag (frameOf t h c p) = t := by
  apply BitVec.eq_of_getLsbD_eq
  intro i hi
  rw [frameTag, BitVec.getLsbD_extractLsb', frameOf_getLsbD]
  simp [hi, show ¬ 37 + i < 32 by omega, show ¬ 37 + i < 35 by omega, show 37 + i < 45 by omega]

@[simp] theorem frameAnnounce_frameOf (t : Byte) (h : BitVec 2) (c : BitVec 3) (p : Payload) :
    frameAnnounce (frameOf t h c p) = announce := by
  apply BitVec.eq_of_getLsbD_eq
  intro i hi
  rw [frameAnnounce, BitVec.getLsbD_extractLsb', frameOf_getLsbD]
  simp [hi, show ¬ 45 + i < 32 by omega, show ¬ 45 + i < 35 by omega, show ¬ 45 + i < 37 by omega]

end Machine

end Sys2Proof
end

