-- ==== Sys2Proof/Laws/PerInstr.lean ====
section
/-!
SUPPORT. Statements made of every command as syntax, one lemma per constructor: the word of a well-formed command carries a
reserved opcode exactly when the command is `RESERVED` (30_encoding.md R61, R65).
-/

namespace Sys2Proof.Laws.ReservedOpcode

/-- Is the command `RESERVED`? -/
def isReserved : Instr → Bool
  | .reserved _ => true
  | .sendB00 _ | .sendB01 _ | .sendB02 _ | .sendB03 _ _ | .sendB04 _ _ | .sendB05 _ _ _ _
  | .setLine _ | .setAddress _ _ | .setRepeat _ => false

/-- The encoded opcode is reserved exactly for `RESERVED`. -/
def Statement (i : Instr) : Prop :=
  i.wellFormed = true → reservedOpcode (opcodeField (encode i)) = isReserved i

theorem sendB00 (f : Payload) : Statement (.sendB00 f) := fun _ => by rw [encode, opcodeField_cmdOf]; rfl
theorem sendB01 (s : Payload) : Statement (.sendB01 s) := fun _ => by rw [encode, opcodeField_cmdOf]; rfl
theorem sendB02 (u : Payload) : Statement (.sendB02 u) := fun _ => by rw [encode, opcodeField_cmdOf]; rfl
theorem sendB03 (a b : Half) : Statement (.sendB03 a b) := fun _ => by rw [encode, opcodeField_cmdOf]; rfl
theorem sendB04 (a b : Half) : Statement (.sendB04 a b) := fun _ => by rw [encode, opcodeField_cmdOf]; rfl
theorem sendB05 (a b c d : Byte) : Statement (.sendB05 a b c d) := fun _ => by rw [encode, opcodeField_cmdOf]; rfl
theorem setLine (l : Byte) : Statement (.setLine l) := fun _ => by rw [encode, opcodeField_cmdOf]; rfl
theorem setAddress (h c : Byte) : Statement (.setAddress h c) := fun _ => by rw [encode, opcodeField_cmdOf]; rfl
theorem setRepeat (n : Byte) : Statement (.setRepeat n) := fun _ => by rw [encode, opcodeField_cmdOf]; rfl
theorem reserved (op : Byte) : Statement (.reserved op) := fun h => by rw [encode, opcodeField_cmdOf]; exact h

end Sys2Proof.Laws.ReservedOpcode
end

