-- ==== Sys2Proof/Tests/Slice0.lean ====
section
/-!
SUPPORT. The model's own tests: words written out from the spec's encoding, the vectors of 95_test_vectors.md, one step at a
time, and for every statement with hypotheses a state and operands that meet them.
-/

namespace Sys2Proof.Tests

open Sys2Proof Sys2Proof.Machine

/-! ### Small states and inputs -/

/-- A block with the shortest segments and a two-byte line break. -/
def tiny (diag : Bool) : Build := { diag := diag, shortUs := 1, diagEol := [0x0D, 0x0A] }

/-- An edge with these inputs and no command. -/
def edge (rst tick ready : Bool) : Inputs :=
  { rst := rst, usTick := tick, cmdValid := false, cmdWord := 0, diagReady := ready }

/-- A block just reset, with these inputs to come. -/
def fresh (diag : Bool) (ps : List Inputs) : State := State.resetOf (tiny diag) ps 0

/-- The frame of `SEND_B05 1, 2, 3, 4` at house 2, channel 5 (95_test_vectors.md V1, P1). -/
def frameV1 : Frame := 0x160B501020304

/-- That send under way in control state `c` at bit `i`, the accumulator holding `par`, the bit `cur`. -/
def sending (diag : Bool) (c : Ctl) (i : BitVec 6) (cur par out : Bool) (ps : List Inputs) : State :=
  { fresh diag ps with st := c, frame := frameV1, bi := i, cur := cur, par := par, rr := 1, out := out }

/-- The control state, the register or the port of the next state, if there is one. -/
def seen {α : Type} (f : State → α) : Result → Option α
  | .next s => some (f s)
  | .fault _ => none
  | .refused _ => none

/-! ### Well-formedness -/

theorem test_reserved_of_a_send_opcode_is_ill_formed : (Instr.reserved 0x05).wellFormed = false := by decide
theorem test_reserved_of_a_set_opcode_is_ill_formed : (Instr.reserved 0x82).wellFormed = false := by decide
theorem test_reserved_bounds :
    [0x06, 0x7F, 0x83, 0xFF].map (fun op => (Instr.reserved op).wellFormed) = [true, true, true, true] := by decide

/-! ### Decoding: words written out from R60 to R63, and V11 to V20 -/

theorem test_decode_sendB00 : decode 0b0000000000111111100000000000000000000000 = .sendB00 0x3F800000 := by decide
theorem test_decode_sendB01 : decode 0b0000000111111111111111111111111111111111 = .sendB01 0xFFFFFFFF := by decide
theorem test_decode_sendB02 : decode 0b0000001000000000000000000000000000000001 = .sendB02 1 := by decide
theorem test_decode_sendB03 : decode 0b0000001111111111111111110111111111111111 = .sendB03 0xFFFF 0x7FFF := by decide
theorem test_decode_sendB04 : decode 0b0000010000010010001101000101011001111000 = .sendB04 0x1234 0x5678 := by decide
theorem test_decode_sendB05 : decode 0b0000010100000001000000100000001100000100 = .sendB05 1 2 3 4 := by decide
theorem test_decode_setLine : decode 0b1000000011111111111111111111111100000101 = .setLine 5 := by decide
theorem test_decode_setAddress : decode 0b1000000111111111111111110000011000001101 = .setAddress 6 13 := by decide
theorem test_decode_setRepeat : decode 0b1000001000000000000000000000000111111111 = .setRepeat 255 := by decide
theorem test_decode_reserved :
    [0x0600000000, 0x7FFFFFFFFF, 0x83000000FF, 0xFFFFFFFFFF].map decode =
      [.reserved 0x06, .reserved 0x7F, .reserved 0x83, .reserved 0xFF] := by decide
theorem test_encode_setAddress : encode (.setAddress 2 5) = 0x8100000205 := by decide
theorem test_decodeTableWord : decodeTableWord 40 0x8200000004 = some (.setRepeat 4) := by decide
theorem test_decodeTableWord_too_long : decodeTableWord 48 0x8200000004 = none := by decide

/-! ### The command language (R69-R72) -/

theorem test_float_one : assembleLine "SEND_B00" [.dec false 10 (-1)] = some [0x003F800000] := by decide
theorem test_float_minus_two_and_a_half : assembleLine "sendB00" [.dec true 25 (-1)] = some [0x00C0200000] := by decide
theorem test_float_pi : assembleLine "sendFloatingPoint" [.dec false 314159265 (-8)] = some [0x0040490FDB] := by decide
theorem test_signed_pair_range : assembleLine "SEND_B03" [.int (-32769), .int 0] = none := by decide
theorem test_byte_range : assembleLine "SEND_B05" [.int 256, .int 0, .int 0, .int 0] = none := by decide
theorem test_init : assembleLine "INIT" [.int 3, .int 6, .int 13] = some [0x8000000003, 0x810000060D] := by decide
theorem test_wordText : wordText 0x0501020304 = "0x0501020304".toList := by decide

/-! ### Codewords: V21, V31, V35, V37, V39, V41 -/

theorem test_codewords :
    [ sendCodeword 0 0x3F800000 0 0, sendCodeword 2 0 3 7, sendCodeword 3 0x80000001 2 5,
      sendCodeword 4 0x12345678 1 3, sendCodeword 5 0x01020304 2 5, sendCodeword 5 0xFFFFFFFF 3 7 ] =
    [ 0x2C0007F000000, 0x2C0BE00000001, 0x2C0EB00000002, 0x2C1162468ACF0, 0x2C16A02040609, 0x2C17FFFFFFFFE ] := by
  decide

/-! ### One command, one step: the accepting edge -/

/-- `exec` and what it leaves of the state's frame latch, configuration and control. -/
def frameAfter (i : Instr) (s : State) : Option (Frame × Ctl × BitVec 8) :=
  seen (fun t => (t.frame, t.st, t.rr)) (exec i s)

def configAfter (i : Instr) (s : State) : Option (BitVec 8 × BitVec 2 × BitVec 3 × BitVec 8) :=
  seen (fun t => (t.line, t.house, t.channel, t.rep)) (exec i s)

theorem test_sendB00 : frameAfter (.sendB00 0x3F800000) State.reset = some (0x160003F800000, .arm, 4) := by decide
theorem test_sendB01 : frameAfter (.sendB01 0xFFFFFFFF) State.reset = some (0x16020FFFFFFFF, .arm, 4) := by decide
theorem test_sendB02 : frameAfter (.sendB02 0) State.reset = some (0x1604000000000, .arm, 4) := by decide
theorem test_sendB03 : frameAfter (.sendB03 0x8000 1) { State.reset with house := 2, channel := 5 } =
    some (0x1607580000001, .arm, 4) := by decide
theorem test_sendB04 : frameAfter (.sendB04 0x1234 0x5678) State.reset = some (0x1608012345678, .arm, 4) := by decide
theorem test_sendB05 : frameAfter (.sendB05 1 2 3 4) { State.reset with house := 2, channel := 5 } =
    some (frameV1, .arm, 4) := by decide
theorem test_sendB05_diag : frameAfter (.sendB05 1 2 3 4) { fresh true [] with house := 2, channel := 5, rep := 7 } =
    some (frameV1, .dBit, 1) := by decide
theorem test_setLine : configAfter (.setLine 3) State.reset = some (3, 0, 0, 4) := by decide
theorem test_setAddress : configAfter (.setAddress 6 13) State.reset = some (9, 2, 5, 4) := by decide
theorem test_setAddress_all_ones : configAfter (.setAddress 255 255) State.reset = some (9, 3, 7, 4) := by decide
theorem test_setRepeat : configAfter (.setRepeat 255) State.reset = some (9, 0, 0, 255) := by decide
theorem test_reserved : exec (.reserved 0x7F) State.reset = .next State.reset := by rfl

theorem test_step_runs_the_fetched_word :
    seen (fun t => (t.line, t.inputs.length)) (step (State.reset.withFetchWord 40 0x8000000003)) = some (3, 0) := by
  decide

/-! ### One edge of the state machines -/

theorem test_tick_at_the_accepting_edge_is_not_counted :
    seen (fun t => (t.st, t.out)) (step (fresh false [presenting 0x0200000000])) = some (.arm, false) := by decide
theorem test_arm_starts_the_sync :
    seen (fun t => (t.st, t.out, t.cnt))
      (step { sending false .arm 0 false false false [edge false true false] with build := Build.standard }) =
    some (.syncH, true, 299) := by decide
theorem test_first_bit :
    seen (fun t => ((t.st, t.out, t.cnt), t.bi, t.cur, t.par, t.rr))
      (step { sending false .syncL 0 false true false [edge false true false] with build := Build.standard, rr := 4 }) =
    some ((.bitH, true, 899), 49, true, true, 3) := by decide
theorem test_parity_bit_does_not_toggle :
    seen (fun t => (t.st, t.bi, t.cur, t.par)) (step (sending false .bitL 1 false true false [edge false true false])) =
    some (.bitH, 0, true, true) := by decide
theorem test_burst_ends :
    seen (fun t => (t.st, t.done, t.out))
      (step { sending false .syncL 0 true true false [edge false true false] with rr := 0 }) =
    some (.idle, true, false) := by decide
theorem test_reset_mid_bit :
    seen (fun t => (t.st, t.out, t.done, t.house, t.rep))
      (step { sending false .bitH 49 true true true [edge true true true] with house := 2 }) =
    some (.idle, false, false, 0, 4) := by decide
theorem test_text_of_the_first_bit :
    (diagData (sending true .dBit 49 false false false []),
      seen (fun t => (t.bi, t.par, diagData t)) (step (sending true .dBit 49 false false false [edge false false true]))) =
    (0x31, some (48, true, 0x30)) := by decide
theorem test_text_stalls :
    seen (fun t => (t.bi, t.par, diagData t)) (step (sending true .dBit 49 false false false [edge false true false])) =
    some (49, false, 0x31) := by decide
theorem test_text_ends :
    seen (fun t => (t.st, t.done)) (step { sending true .dEol 0 false true false [edge false false true] with eoli := 1 }) =
    some (.idle, true) := by decide
theorem test_unreachable_state_faults :
    step (sending false .dBit 0 false false false [edge false false false]) = .fault .unreachableState := by rfl
theorem test_refused_elaboration :
    step { fresh false [edge false false false] with build := { tiny false with shortUs := 529 } } =
      .refused .elaborationRefused := by rfl
theorem test_longest_elaboration : buildLegal { tiny false with shortUs := 528 } = true := by decide
theorem test_durations : [0, 1, 2, 4, 255].map (burstUs Build.standard) = [9600, 79200, 148800, 288000, 17757600] := by
  decide

/-! ### Witnesses: what the statements assume can be met -/

/-- The idle block of each build meets the invariant, whatever it is driven with. -/
theorem witness_inv_fresh (ps : List Inputs) : BlockInv (fresh false ps) ∧ BlockInv (fresh true ps) :=
  ⟨by constructor <;> first | rfl | simp [fresh, State.resetOf], by constructor <;> first | rfl | simp [fresh, State.resetOf]⟩

theorem witness_DecodeEncodeRoundTrip :
    (Instr.reserved 0x06).wellFormed = true ∧ (Instr.reserved 0xFF).wellFormed = true ∧
      (Instr.sendB05 1 2 3 4).wellFormed = true := by decide

theorem witness_DecoderFollowsOpcodeMap :
    (0x05FFFFFFFF : CmdWord).toNat / 2 ^ 32 ≤ 0x05 ∧ (0x8000000000 : CmdWord).toNat / 2 ^ 32 = 0x80 ∧
    (0x8100000000 : CmdWord).toNat / 2 ^ 32 = 0x81 ∧ (0x8200000000 : CmdWord).toNat / 2 ^ 32 = 0x82 ∧
    0x05 < (0x0600000000 : CmdWord).toNat / 2 ^ 32 ∧ (0x8300000000 : CmdWord).toNat / 2 ^ 32 = 0x83 := by decide

theorem witness_ReservedOpcodesAreAccepted :
    State.reset.st = .idle ∧ reservedOpcode (opcodeField 0x7F00000000) = true := by decide

theorem witness_IgnoredBitsHaveNoEffect :
    (0x81FFFFFEFD : CmdWord) &&& effectMask (opcodeField 0x81FFFFFEFD) =
      0x8100000205 &&& effectMask (opcodeField 0x81FFFFFEFD) := by decide

theorem witness_TagsAboveFiveAreNeverSent : State.reset.st = .idle := rfl

theorem witness_InitPseudoCommand : assemble .setLine [.int 255] = some [.setLine 255] := by decide

theorem witness_ResetEdgeRestoresDefaults :
    buildLegal (sending false .bitH 49 true true true [edge true true true]).build = true ∧
    (inputsAt (sending false .bitH 49 true true true [edge true true true])).rst = true ∧
    buildLegal (sending true .dEol 0 false true false [edge true true true]).build = true ∧
    (inputsAt (sending true .dEol 0 false true false [edge true true true])).rst = true := by decide

theorem witness_ResetEdgeKeepsBuildAndInputs :
    buildLegal (sending true .dBit 49 true true false [edge true false false, edge false false true]).build = true ∧
    (inputsAt (sending true .dBit 49 true true false [edge true false false, edge false false true])).rst = true := by
  decide

theorem witness_FirstEdgeAfterResetAccepts :
    ∃ t, step (sending false .bitH 49 true true true [edge true true true, presenting 0x0200000000]) = .next t ∧
      (inputsAt t).rst = false ∧ (inputsAt t).cmdValid = true := ⟨_, rfl, by decide, by decide⟩

theorem witness_StepRunsDecodedCommand :
    edgeOpen (fresh false [presenting 0x0200000000]) ∧ (fresh false [presenting 0x0200000000]).st = .idle ∧
    (inputsAt (fresh false [presenting 0x0200000000])).cmdValid = true ∧ (Instr.sendB02 0).wellFormed = true := by
  unfold edgeOpen; decide

theorem witness_CommandPortIsIgnoredWhileBusy :
    (sending false .bitH 49 true true true []).st ≠ .idle ∧ (edge false true true).cmdValid = false := by decide

theorem witness_CommandWaitsWhileBusy : (sending true .dEol 0 false true false []).st ≠ .idle := by decide

theorem witness_IdleWaitsForACommand :
    edgeOpen (fresh false [presenting 0x05FFFFFFFF]) ∧ edgeOpen (fresh false [edge false true true]) ∧
    BlockInv (fresh false [presenting 0x05FFFFFFFF]) ∧ (fresh false []).st = .idle ∧ (fresh false []).build.diag = false :=
  ⟨by unfold edgeOpen; decide, by unfold edgeOpen; decide, (witness_inv_fresh _).1, rfl, rfl⟩

theorem witness_SendArmsTheTransmitter : State.reset.st = .idle ∧ State.reset.build.diag = false := by decide
theorem witness_SendArmsTheTransmitter_range : -2 ^ 31 ≤ (-2147483648 : Int) ∧ (-2147483648 : Int) < 2 ^ 31 := by decide

theorem witness_SendStartsTheText : (fresh true []).st = .idle ∧ (fresh true []).build.diag = true := by decide

theorem witness_PayloadsRoundTrip :
    -2 ^ 31 ≤ (2147483647 : Int) ∧ (2147483647 : Int) < 2 ^ 31 ∧ -2 ^ 15 ≤ (-32768 : Int) ∧ (32767 : Int) < 2 ^ 15 := by
  decide

theorem witness_ConfigurationWritesOnlyItsRegister : State.reset.st = .idle := rfl
theorem witness_SetAddressTruncates : (fresh true []).st = .idle ∧ (opcodeField 0x05FFFFFFFF).toNat ≤ 5 := by decide
theorem witness_SetRepeatRulesTheNextSend :
    (fresh false []).st = .idle ∧ (fresh true []).st = .idle ∧ (opcodeField 0x0000000000).toNat ≤ 5 ∧
    (opcodeField 0x05FFFFFFFF).toNat ≤ 5 := by decide

theorem witness_ReservedCommandsDoNothing :
    State.reset.st = .idle ∧ 0x06 ≤ (0x06 : Byte).toNat ∧ (0x7F : Byte).toNat ≤ 0x7F ∧ 0x83 ≤ (0x83 : Byte).toNat := by
  decide

theorem witness_ConfigurationIsIdempotent :
    State.reset.st = .idle ∧ (∀ f, Instr.setLine 3 ≠ .sendB00 f) ∧ (∀ v, Instr.setLine 3 ≠ .sendB01 v) ∧
    (∀ u, Instr.setLine 3 ≠ .sendB02 u) ∧ (∀ a b, Instr.setLine 3 ≠ .sendB03 a b) ∧
    (∀ a b, Instr.setLine 3 ≠ .sendB04 a b) ∧ (∀ a b c d, Instr.setLine 3 ≠ .sendB05 a b c d) := by
  refine ⟨rfl, ?_, ?_, ?_, ?_, ?_, ?_⟩ <;> intros <;> nofun

theorem witness_ConfigurationChangesOnlyByItsCommand :
    (∃ t, step (fresh false [presenting 0x8000000003]) = .next t ∧ t.line ≠ (9 : Byte)) ∧
    (∃ t, step (fresh false [presenting 0x810000FFFF]) = .next t ∧ t.house ≠ (0 : BitVec 2)) ∧
    (∃ t, step (fresh false [presenting 0x8200000000]) = .next t ∧ t.rep ≠ (4 : Byte)) ∧
    (inputsAt (fresh false [presenting 0x8000000003])).rst = false :=
  ⟨⟨_, rfl, by decide⟩, ⟨_, rfl, by decide⟩, ⟨_, rfl, by decide⟩, rfl⟩

theorem witness_BuildNeverChanges :
    (∃ t, step (fresh true [edge true false false]) = .next t) ∧ (∃ t, exec (.setRepeat 1) (fresh true []) = .next t) :=
  ⟨⟨_, rfl⟩, ⟨_, rfl⟩⟩

theorem witness_DurationCeiling :
    buildLegal { tiny false with shortUs := 528 } = true ∧ 1 ≤ (tiny false).shortUs ∧ (tiny false).diagEol ≠ [] ∧
    528 < ({ State.reset with build := { tiny false with shortUs := 529 } } : State).build.shortUs := by decide

theorem witness_WaveformAlternates :
    (waveform (tiny false) 5 0x01020304 2 5 0)[0]? = some ⟨true, 1⟩ ∧
    (waveform (tiny false) 5 0x01020304 2 5 0)[1]? = some ⟨false, 31⟩ ∧
    (waveform (tiny false) 5 0x01020304 2 5 0)[2]? = none := by decide

theorem witness_ArmWaitsForTheFirstTick :
    edgeOpen (sending false .arm 0 false false false [edge false true false]) ∧
    (sending false .arm 0 false false false []).st = .arm ∧
    edgeOpen (fresh false [presenting 0x05FFFFFFFF]) ∧
    (inputsAt (fresh false [presenting 0x05FFFFFFFF])).cmdValid = true ∧
    (opcodeField (inputsAt (fresh false [presenting 0x05FFFFFFFF])).cmdWord).toNat ≤ 5 := by
  unfold edgeOpen; decide

/-- A tick edge in each control state of a transmit build. -/
def ticking (c : Ctl) (i : BitVec 6) : State := sending false c i true true false [edge false true false]

theorem witness_SyncHighPart :
    edgeOpen (ticking .syncH 0) ∧ (ticking .syncH 0).st = .syncH ∧ (inputsAt (ticking .syncH 0)).usTick = true := by
  unfold edgeOpen; decide

theorem witness_SyncLowPart :
    edgeOpen (ticking .syncL 49) ∧ (ticking .syncL 49).st = .syncL ∧ (inputsAt (ticking .syncL 49)).usTick = true ∧
    (ticking .syncL 49).rr.toNat ≠ 0 := by
  unfold edgeOpen; decide

theorem witness_BitHighPart :
    edgeOpen (ticking .bitH 49) ∧ (ticking .bitH 49).st = .bitH ∧ (inputsAt (ticking .bitH 49)).usTick = true := by
  unfold edgeOpen; decide

theorem witness_BitLowPart :
    ∀ i : BitVec 6, i ∈ [0, 1, 2, 49] →
      edgeOpen (ticking .bitL i) ∧ (ticking .bitL i).st = .bitL ∧ (inputsAt (ticking .bitL i)).usTick = true := by
  unfold edgeOpen; decide

theorem witness_NewRepetitionForgetsTheOld :
    edgeOpen (ticking .syncL 49) ∧ (49 : BitVec 6).toNat ≤ 49 ∧ (ticking .syncL 49).st = .syncL ∧
    (inputsAt (ticking .syncL 49)).usTick = true ∧ (ticking .syncL 49).cnt = 0 ∧ (ticking .syncL 49).rr ≠ 0 := by
  unfold edgeOpen; decide

/-- The HIGH of the first bit of the V1 send, two ticks left after this one. -/
def firstBit : State := { sending false .bitH 49 true true true [] with cnt := 2 }

theorem witness_inv_firstBit : BlockInv firstBit := by constructor <;> decide

theorem witness_SegmentCountsItsTicks :
    BlockInv firstBit ∧ firstBit.st ∈ [Ctl.syncH, .syncL, .bitH, .bitL] ∧
    (∀ p ∈ [edge false true true, edge false false true, edge false true true], p.rst = false) ∧
    tickCount [edge false true true, edge false false true, edge false true true] ≤ firstBit.cnt.toNat ∧
    endsAtTick (firstBit.cnt.toNat + 1)
      [edge false true true, edge false false true, edge false true true, edge false true true] :=
  ⟨witness_inv_firstBit, by decide, by decide, by decide, by unfold endsAtTick; decide⟩

/-- The first character of the V1 send in a diagnostic build. -/
def firstChar : State := sending true .dBit 49 false false false []

theorem witness_inv_firstChar : BlockInv firstChar := by constructor <;> decide

theorem witness_SendIsStuckWithoutItsPace :
    (BlockInv firstBit ∧ firstBit.st ≠ .idle ∧ ∀ p ∈ [edge false false true], p.rst = false ∧ p.usTick = false) ∧
    (BlockInv firstChar ∧ firstChar.st ≠ .idle ∧ ∀ p ∈ [edge false true false], p.rst = false ∧ p.diagReady = false) :=
  ⟨⟨witness_inv_firstBit, by decide, by decide⟩, witness_inv_firstChar, by decide, by decide⟩

theorem witness_DonePulsesAtTheEndOfASend :
    (∃ t, step { ticking .syncL 0 with rr := 0 } = .next t ∧ t.done = true) ∧
    (∃ t, step { sending true .dEol 0 false true false [edge false true true] with eoli := 1 } = .next t ∧
      t.done = true ∧ ∃ u, step { t with inputs := [edge false true true] } = .next u) :=
  ⟨⟨_, rfl, by decide⟩, ⟨_, rfl, by decide, _, rfl⟩⟩

theorem witness_DiagnosticIdleWaitsForACommand :
    (fresh true []).st = .idle ∧ (fresh true []).build.diag = true ∧
    ∀ p ∈ [presenting 0x05FFFFFFFF, presenting 0x0600000000, edge false true true], edgeOpen (fresh true [p]) := by
  unfold edgeOpen; decide

theorem witness_TextPortShowsTheBit :
    firstChar.build.diag = true ∧ firstChar.st = .dBit ∧ (sending true .dEol 0 false true false []).st = .dEol ∧
    (fresh true []).st = .idle ∧ edgeOpen { firstChar with inputs := [edge false true false] } ∧
    diagValid firstChar = true ∧ (inputsAt { firstChar with inputs := [edge false true false] }).diagReady = false := by
  unfold edgeOpen; decide

theorem witness_TextBitTransfer :
    (∀ i : BitVec 6, i ∈ [0, 1, 49] → edgeOpen (sending true .dBit i false true false [edge false true true])) ∧
    BlockInv (sending true .dBit 0 false true false []) :=
  ⟨by unfold edgeOpen; decide, by constructor <;> decide⟩

theorem witness_TextEolTransfer :
    ∀ k ∈ [0, 1], edgeOpen { sending true .dEol 0 false true false [edge false true true] with eoli := k } := by
  unfold edgeOpen; decide

theorem witness_DiagnosticBuildDrivesNoLine :
    firstChar.build.diag = true ∧ BlockInv firstChar ∧ ∃ t, step { firstChar with inputs := [edge false true true] } = .next t :=
  ⟨rfl, witness_inv_firstChar, _, rfl⟩

theorem witness_TextOfADiagnosticSend :
    ∃ s : State, ∃ p : Inputs, ∃ ps rest : List Inputs, BlockInv s ∧ s.st = .idle ∧ s.build.diag = true ∧
      s.inputs = p :: (ps ++ rest) ∧ p.rst = false ∧ p.cmdValid = true ∧ (opcodeField p.cmdWord).toNat ≤ 5 ∧
      endsAtReady (50 + s.build.diagEol.length) ps :=
  ⟨fresh true (presenting 0x0501020304 :: (edge false true false :: List.replicate 52 (edge false true true))),
    presenting 0x0501020304, edge false true false :: List.replicate 52 (edge false true true), [],
    (witness_inv_fresh _).2, rfl, rfl, rfl, rfl, rfl, by decide, by unfold endsAtReady; decide⟩

theorem witness_LineCarriesTheWaveform :
    ∃ s : State, ∃ p : Inputs, ∃ ps rest : List Inputs, BlockInv s ∧ s.st = .idle ∧ s.build.diag = false ∧
      s.inputs = p :: (ps ++ rest) ∧ p.rst = false ∧ p.cmdValid = true ∧ (opcodeField p.cmdWord).toNat ≤ 5 ∧
      s.rep = 0 ∧ endsAtTick (burstUs s.build s.rep.toNat + 1) ps :=
  ⟨{ fresh false (presenting 0x05FFFFFFFF :: (edge false false false :: List.replicate 33 (edge false true true))) with
      rep := 0 },
    presenting 0x05FFFFFFFF, edge false false false :: List.replicate 33 (edge false true true), [],
    ⟨by decide, by decide, by decide, by decide, by decide, by decide, by decide, by decide, by decide, by decide,
      by decide⟩, rfl, rfl, rfl, rfl, rfl, by decide, rfl, by unfold endsAtTick; decide⟩

/-- At every repeat count some edges end at the tick the statement asks for. -/
theorem witness_LineCarriesTheWaveform_repeated (r : Byte) :
    endsAtTick (burstUs (tiny false) r.toNat + 1)
      (List.replicate (burstUs (tiny false) r.toNat + 1) (edge false true true)) :=
  ⟨by simp [List.mem_replicate, edge], by simp [tickCount, List.countP_replicate, edge],
    by simp [List.getLast?_replicate, edge]⟩

theorem witness_ResetMeetsInv : buildLegal (tiny true) = true ∧ buildLegal Build.standard = true := by decide

theorem witness_StepKeepsInv :
    BlockInv { firstBit with inputs := [edge false true true] } ∧
      ∃ t, step { firstBit with inputs := [edge false true true] } = .next t :=
  ⟨by constructor <;> decide, _, rfl⟩

theorem witness_AccumulatorAgreesWithParity :
    (BlockInv firstBit ∧ firstBit.st = .bitH ∧ 1 ≤ firstBit.bi.toNat) ∧
    (BlockInv (sending false .bitL 0 true true false []) ∧ (sending false .bitL 0 true true false []).st = .bitL ∧
      (sending false .bitL 0 true true false []).bi.toNat = 0) :=
  ⟨⟨witness_inv_firstBit, by decide, by decide⟩, by constructor <;> decide, by decide, by decide⟩

theorem witness_BlockNeverFaults : buildLegal firstBit.build = true ∧ firstBit.legal = true := by decide

theorem witness_WorkingRegistersDoNotLeak :
    BlockInv (fresh false []) ∧ BlockInv { fresh false [] with cnt := 5, bi := 7, par := true, cur := true, frame := 1 } ∧
      (fresh false []).st = .idle :=
  ⟨(witness_inv_fresh _).1, by constructor <;> decide, rfl⟩

end Sys2Proof.Tests
end

section
/-!
PROOFS. The invariant `BlockInv`: it holds at reset, and every step keeps it (10_state.md R37, R41; 30_encoding.md R66;
41_codeword_framer.md R96). A block under way in a transmit build is `Transmitting`; every segment that starts from there
meets the invariant if the accumulator agrees with the codeword, which `bitValue_codeword` and `parNext_codeword` say of
every bit.
-/

namespace Sys2Proof.Machine

/-! ### What the invariant does not read -/

/-- The invariant speaks neither of the configuration nor of the environment's part. -/
theorem BlockInv.withConfig {s : State} (h : BlockInv s) (line : BitVec 8) (house : BitVec 2) (channel : BitVec 3)
    (rep : BitVec 8) :
    BlockInv { s with line := line, house := house, channel := channel, rep := rep } :=
  { h with }

theorem BlockInv.advance {s : State} (h : BlockInv s) : BlockInv (advance s) :=
  { h with }

theorem BlockInv.clearDone {s : State} (h : BlockInv s) : BlockInv (clearDone s) :=
  { h with doneIdle := nofun }

/-- `CNT` may hold any value within the bound. -/
theorem BlockInv.withCnt {s : State} (h : BlockInv s) {n : BitVec 14} (hn : n.toNat ≤ syncUs s.build - 1) :
    BlockInv { s with cnt := n } :=
  { h with cntBound := hn }

/-! ### Reset -/

/-- The block just reset meets the invariant (70_reset_and_hazards.md R146). -/
theorem blockInv_resetOf {b : Build} (hb : buildLegal b = true) (inputs : List Inputs) (edges : Nat) :
    BlockInv (State.resetOf b inputs edges) where
  build := hb
  legal := (legal_iff _).mpr ⟨rfl, Nat.zero_le _, List.length_pos_iff.mpr ((buildLegal_iff b).mp hb).2.2⟩
  cntBound := Nat.zero_le _
  outLow := fun _ _ => rfl
  outHigh := by rintro (h | h) <;> cases h
  doneIdle := nofun
  announced := fun h => absurd rfl h
  tagged := fun h => absurd rfl h
  onLine := by rintro (h | h) <;> cases h
  asText := nofun
  textDone := nofun

/-! ### Facts of a block that meets the invariant -/

/-- A legal line break has a first byte (43_diagnostic_mode.md R122). -/
theorem BlockInv.eol_pos {s : State} (h : BlockInv s) : 0 < s.build.diagEol.length :=
  List.length_pos_iff.mpr ((buildLegal_iff _).mp h.build).2.2

theorem BlockInv.notDone {s : State} (h : BlockInv s) (hs : s.st ≠ .idle) : s.done = false :=
  Bool.eq_false_iff.mpr (mt h.doneIdle hs)

/-- `OUT` is 0 in a diagnostic build (10_state.md R36). -/
theorem BlockInv.out_diag {s : State} (h : BlockInv s) (hd : s.build.diag = true) : s.out = false := by
  have hctl : ∀ c, s.st = c → ctlLegal true c = true := fun c hc => hd ▸ legal_ctl h.legal hc
  exact h.outLow (fun hs => nomatch hctl _ hs) (fun hs => nomatch hctl _ hs)

/-! ### A send accepted -/

@[simp] theorem acceptSend_build (tag : Byte) (p : Payload) (s : State) : (acceptSend tag p s).build = s.build := by
  unfold acceptSend; split <;> rfl
@[simp] theorem acceptSend_line (tag : Byte) (p : Payload) (s : State) : (acceptSend tag p s).line = s.line := by
  unfold acceptSend; split <;> rfl
@[simp] theorem acceptSend_house (tag : Byte) (p : Payload) (s : State) : (acceptSend tag p s).house = s.house := by
  unfold acceptSend; split <;> rfl
@[simp] theorem acceptSend_channel (tag : Byte) (p : Payload) (s : State) :
    (acceptSend tag p s).channel = s.channel := by
  unfold acceptSend; split <;> rfl
@[simp] theorem acceptSend_rep (tag : Byte) (p : Payload) (s : State) : (acceptSend tag p s).rep = s.rep := by
  unfold acceptSend; split <;> rfl
@[simp] theorem acceptSend_cnt (tag : Byte) (p : Payload) (s : State) : (acceptSend tag p s).cnt = s.cnt := by
  unfold acceptSend; split <;> rfl
@[simp] theorem acceptSend_out (tag : Byte) (p : Payload) (s : State) : (acceptSend tag p s).out = s.out := by
  unfold acceptSend; split <;> rfl
@[simp] theorem acceptSend_done (tag : Byte) (p : Payload) (s : State) : (acceptSend tag p s).done = false := by
  unfold acceptSend; split <;> rfl
@[simp] theorem acceptSend_frame (tag : Byte) (p : Payload) (s : State) :
    (acceptSend tag p s).frame = frameOf tag s.house s.channel p := by
  unfold acceptSend; split <;> rfl

/-- A send leads to the first state of its build's state machine, which shows nothing on the line yet. -/
theorem acceptSend_st (tag : Byte) (p : Payload) (s : State) :
    (acceptSend tag p s).st = .arm ∨ (acceptSend tag p s).st = .dBit := by
  unfold acceptSend; split <;> simp

theorem acceptSend_legal {s : State} (h : BlockInv s) (tag : Byte) (p : Payload) :
    (acceptSend tag p s).legal = true := by
  obtain ⟨-, hbi, heol⟩ := (legal_iff s).mp h.legal
  cases hd : s.build.diag with
  | false =>
    rw [acceptSend_transmit hd]
    exact (legal_iff _).mpr ⟨by simp [hd, ctlLegal], hbi, heol⟩
  | true =>
    rw [acceptSend_diag hd]
    exact (legal_iff _).mpr ⟨by simp [hd, ctlLegal], by simp, h.eol_pos⟩

/-- A text starts at bit 49 with the accumulator at 0 (43_diagnostic_mode.md R119), the parity of no bits. -/
theorem acceptSend_asText {s : State} {tag : Byte} {p : Payload} (hs : (acceptSend tag p s).st = .dBit) :
    (acceptSend tag p s).par =
      parityDownTo (codeword (acceptSend tag p s).frame) ((acceptSend tag p s).bi.toNat + 1) := by
  unfold acceptSend at hs ⊢
  split
  · exact (parityDownTo_top _).symm
  · next hd => simp [hd] at hs

/-- An accepted send of a tag the block sends meets the invariant (40_send_commands.md R74; 43_diagnostic_mode.md R119). -/
theorem blockInv_acceptSend {s : State} (h : BlockInv s) (hs : s.st = .idle) {tag : Byte} (htag : tag.toNat ≤ 5)
    (p : Payload) : BlockInv (acceptSend tag p s) where
  build := by simpa using h.build
  legal := acceptSend_legal h tag p
  cntBound := by simpa using h.cntBound
  outLow := fun _ _ => by simpa using h.outLow (by simp [hs]) (by simp [hs])
  outHigh := by rcases acceptSend_st tag p s with hc | hc <;> simp [hc]
  doneIdle := by simp
  announced := by simp
  tagged := by simpa using fun _ => htag
  onLine := by rcases acceptSend_st tag p s with hc | hc <;> simp [hc]
  asText := acceptSend_asText
  textDone := by rcases acceptSend_st tag p s with hc | hc <;> simp [hc]

/-- A command taken in `IDLE` keeps the invariant. -/
theorem Taken.blockInv {s t : State} {i : Instr} (ht : Taken s i t) (h : BlockInv s) (hs : s.st = .idle) :
    BlockInv t := by
  cases ht with
  | send tag p htag => exact blockInv_acceptSend h hs htag p
  | setLine l => exact h.clearDone.withConfig ..
  | setAddress x c => exact h.clearDone.withConfig ..
  | setRepeat n => exact h.clearDone.withConfig ..
  | reserved op => exact h.clearDone

/-! ### The transmit build -/

/-- A send under way in a transmit build, whatever segment stands on the line. -/
structure Transmitting (s : State) : Prop extends Busy s where
  announced : frameAnnounce s.frame = announce
  tagged : (frameTag s.frame).toNat ≤ 5

theorem BlockInv.transmitting {s : State} (h : BlockInv s) (hs : s.st ≠ .idle) (hd : s.build.diag = false) :
    Transmitting s where
  build := h.build
  legal := h.legal
  transmit := hd
  busy := hs
  notDone := h.notDone hs
  announced := h.announced hs
  tagged := h.tagged hs

/-- `CUR` and `PAR` agree with the codeword at bit `BI` (41_codeword_framer.md R96). -/
def BitAgrees (s : State) : Prop :=
  s.cur = (codeword s.frame).getLsbD s.bi.toNat ∧ s.par = parityDownTo (codeword s.frame) (max s.bi.toNat 1)

theorem bitHighUs_le_syncUs (b : Build) (v : Bool) : bitHighUs b v ≤ syncUs b := by
  unfold bitHighUs longUs shortUs syncUs
  split <;> omega

theorem bitLowUs_le_syncUs (b : Build) (v : Bool) : bitLowUs b v ≤ syncUs b := by
  unfold bitLowUs longUs shortUs syncUs
  split <;> omega

/-- A segment that starts meets the invariant: its level is its part's, its duration at most a sync's, and if it is a
bit's, the bit agrees with the codeword (R41, R96). -/
theorem blockInv_startSegment {s : State} (h : Transmitting s) {c : Ctl} {l : Bool} {d : Nat}
    (hc : c ∈ [Ctl.syncH, .syncL, .bitH, .bitL]) (hl : l = true ↔ c = .syncH ∨ c = .bitH) (hd : d ≤ syncUs s.build)
    (hbit : c = .bitH ∨ c = .bitL → BitAgrees s) : BlockInv (startSegment c l d s) := by
  have hmax : d ≤ delayMaxUs := hd.trans ((buildLegal_iff _).mp h.build).2.1
  obtain ⟨-, hbi, heol⟩ := (legal_iff s).mp h.legal
  have hctl : ctlLegal false c = true ∧ c ≠ .dBit ∧ c ≠ .dEol := by
    clear hl hbit
    revert c
    decide
  exact
    { build := h.build
      legal := (legal_iff _).mpr ⟨by simpa [h.transmit] using hctl.1, hbi, heol⟩
      cntBound := by
        rw [startSegment_cnt, loadCnt_toNat hmax]
        exact Nat.sub_le_sub_right hd 1
      outLow := fun h1 h2 => Bool.eq_false_iff.mpr fun hl1 => (hl.mp hl1).elim h1 h2
      outHigh := hl.mpr
      doneIdle := fun hdone => absurd (h.notDone.symm.trans hdone) (by decide)
      announced := fun _ => h.announced
      tagged := fun _ => h.tagged
      onLine := hbit
      asText := fun hs => absurd hs hctl.2.1
      textDone := fun hs => absurd hs hctl.2.2 }

theorem blockInv_startSync {s : State} (h : Transmitting s) : BlockInv (startSync s) :=
  blockInv_startSegment h (by decide) (by decide) (by unfold shortUs syncUs; omega) (by simp)

/-- A bit that starts meets the invariant, if the accumulator holds the parity of the bits above it (R94, R96). Bit 49
needs nothing of the accumulator, for it starts from 0 there (R91). -/
theorem blockInv_startBit {s : State} (h : Transmitting s) {i : BitVec 6} (hi : i.toNat ≤ 49)
    (hpar : i.toNat ≠ 49 → s.par = parityDownTo (codeword s.frame) (i.toNat + 1)) : BlockInv (startBit i s) := by
  have hagree : BitAgrees { s with par := parNext s.frame s.par i, bi := i, cur := bitValue s.frame s.par i } := by
    refine ⟨bitValue_codeword _ _ _ fun h0 => ?_, ?_⟩
    · rw [hpar (by omega), h0, parityDownTo_one]
    · rcases Nat.eq_zero_or_pos i.toNat with h0 | h1
      · have hi0 : i = 0 := (bi_zero_iff i).mpr h0
        subst hi0
        exact hpar (by decide)
      · rw [Nat.max_eq_left h1]
        exact parNext_codeword _ _ _ h1 hi hpar
  obtain ⟨hctl, -, heol⟩ := (legal_iff s).mp h.legal
  have hrun : Transmitting { s with par := parNext s.frame s.par i, bi := i, cur := bitValue s.frame s.par i } :=
    { h with legal := (legal_iff _).mpr ⟨hctl, hi, heol⟩ }
  exact blockInv_startSegment hrun (by decide) (by decide) (bitHighUs_le_syncUs _ _) fun _ => hagree

/-- A send that ends leaves `OUT` at 0 and is back in `IDLE` (42_pulse_serializer.md R111; 43_diagnostic_mode.md R122). -/
theorem BlockInv.sendEnds {s : State} (h : BlockInv s) (hout : s.out = false) :
    BlockInv { s with st := .idle, done := true } :=
  { h with
    legal := (legal_iff _).mpr ⟨rfl, ((legal_iff s).mp h.legal).2⟩
    outLow := fun _ _ => hout
    outHigh := by simp
    doneIdle := fun _ => rfl
    announced := by simp
    tagged := by simp
    onLine := by simp
    asText := by simp
    textDone := by simp }

theorem blockInv_endSync {s : State} (h : BlockInv s) (hs : s.st = .syncL) (hd : s.build.diag = false) :
    BlockInv (endSync s) := by
  have hrun := h.transmitting (by simp [hs]) hd
  unfold endSync
  split
  · exact h.sendEnds (h.outLow (by simp [hs]) (by simp [hs]))
  · exact blockInv_startBit (s := { s with rr := s.rr - 1 }) { hrun with } (by decide) (absurd rfl)

theorem blockInv_endBit {s : State} (h : BlockInv s) (hs : s.st = .bitL) (hd : s.build.diag = false) :
    BlockInv (endBit s) := by
  have hrun := h.transmitting (by simp [hs]) hd
  obtain ⟨-, hbi, -⟩ := (legal_iff s).mp h.legal
  unfold endBit
  split
  · exact blockInv_startSync hrun
  · next h0 =>
    have hpos : s.bi.toNat ≠ 0 := mt (bi_zero_iff _).mpr h0
    refine blockInv_startBit hrun (by rw [toNat_pred _ h0]; omega) fun _ => ?_
    rw [(h.onLine (.inr hs)).2, toNat_pred _ h0]
    congr 1
    omega

/-- A segment's tick edge keeps the invariant, if what follows the segment meets it (R104). -/
theorem blockInv_countOr {s s' : State} (h : BlockInv s) (h' : BlockInv s') : BlockInv (countOr s s') := by
  unfold countOr
  split
  · exact h'
  · next h0 => exact h.withCnt (by rw [toNat_pred _ h0]; have := h.cntBound; omega)

/-- Every tick edge of a transmit build keeps the invariant (R105-R110). -/
theorem blockInv_tickEdge {s : State} (h : BlockInv s) (hd : s.build.diag = false) : BlockInv (tickEdge s) := by
  have hrun : s.st ≠ .idle → Transmitting s := fun hs => h.transmitting hs hd
  unfold tickEdge
  cases hs : s.st with
  | idle | dBit | dEol => exact h
  | arm => exact blockInv_startSync (hrun (by simp [hs]))
  | syncH =>
    exact blockInv_countOr h (blockInv_startSegment (hrun (by simp [hs])) (by decide) (by decide) le_rfl (by simp))
  | syncL => exact blockInv_countOr h (blockInv_endSync h hs hd)
  | bitH =>
    exact blockInv_countOr h (blockInv_startSegment (hrun (by simp [hs])) (by decide) (by decide)
      (bitLowUs_le_syncUs _ _) fun _ => h.onLine (.inl hs))
  | bitL => exact blockInv_countOr h (blockInv_endBit h hs hd)

/-! ### The diagnostic build -/

/-- A text byte of the codeword transferred keeps the invariant (43_diagnostic_mode.md R121). -/
theorem blockInv_bitTransferred {s : State} (h : BlockInv s) (hs : s.st = .dBit) : BlockInv (bitTransferred s) := by
  obtain ⟨hctl, hbi, heol⟩ := (legal_iff s).mp h.legal
  have hd : s.build.diag = true := by simpa [hs, ctlLegal] using hctl
  have hpar := h.asText hs
  unfold bitTransferred
  split
  · next h0 =>
    rw [(bi_zero_iff _).mp h0] at hpar
    exact
      { h with
        legal := (legal_iff _).mpr ⟨hd, hbi, h.eol_pos⟩
        outLow := fun _ _ => h.out_diag hd
        outHigh := by simp
        doneIdle := by simp [h.notDone, hs]
        announced := fun _ => h.announced (by simp [hs])
        tagged := fun _ => h.tagged (by simp [hs])
        onLine := by simp
        asText := by simp
        textDone := fun _ => hpar }
  · next h0 =>
    have hpos : 1 ≤ s.bi.toNat := Nat.one_le_iff_ne_zero.mpr (mt (bi_zero_iff _).mpr h0)
    exact
      { h with
        legal := (legal_iff _).mpr ⟨hctl, by rw [toNat_pred _ h0]; omega, heol⟩
        onLine := by simp [hs]
        asText := fun _ => by
          rw [toNat_pred _ h0, Nat.sub_add_cancel hpos]
          exact parNext_codeword _ _ _ hpos hbi fun _ => hpar
        textDone := by simp [hs] }

/-- A byte of the line break transferred keeps the invariant (R122). -/
theorem blockInv_eolTransferred {s : State} (h : BlockInv s) (hs : s.st = .dEol) : BlockInv (eolTransferred s) := by
  obtain ⟨hctl, hbi, heol⟩ := (legal_iff s).mp h.legal
  unfold eolTransferred
  split
  · exact h.sendEnds (h.outLow (by simp [hs]) (by simp [hs]))
  · next hlast =>
    have hlt : s.eoli + 1 < s.build.diagEol.length := by omega
    exact { h with legal := (legal_iff _).mpr ⟨hctl, hbi, hlt⟩ }

/-- Every transfer keeps the invariant. -/
theorem blockInv_transferEdge {s : State} (h : BlockInv s) : BlockInv (transferEdge s) := by
  unfold transferEdge
  cases hs : s.st with
  | dBit => exact blockInv_bitTransferred h hs
  | dEol => exact blockInv_eolTransferred h hs
  | idle | arm | syncH | syncL | bitH | bitL => exact h

/-! ### The step -/

/-- An edge of either build at which neither reset nor command is taken keeps the invariant. -/
theorem blockInv_runEdge {s : State} (h : BlockInv s) (p : Inputs) : BlockInv (runEdge p s) := by
  cases hd : s.build.diag with
  | false =>
    rw [runEdge_transmit hd, transmitEdge]
    split
    · exact blockInv_tickEdge h.clearDone hd
    · exact h.clearDone
  | true =>
    rw [runEdge_diag hd, diagEdge]
    split
    · exact blockInv_transferEdge h.clearDone
    · exact h.clearDone

/-- Settles O47: the reset state is the block just reset of the default build. -/
theorem resetMeetsInv : Obligations.ResetMeetsInv :=
  ⟨blockInv_resetOf (by decide) _ _, fun _ inputs edges hb => blockInv_resetOf hb inputs edges⟩

/-- Settles O48, along the three ways a step answers a next state: a reset, a command taken, the build's own edge. -/
theorem stepKeepsInv : Obligations.StepKeepsInv := by
  intro s t h hst
  obtain ⟨hb, ⟨-, rfl⟩ | ⟨-, -, hs, -, he⟩ | ⟨-, -, -, rfl⟩⟩ := step_cases hst
  · exact blockInv_resetOf hb _ _
  · exact (exec_taken (s := advance s) hs he).blockInv h.advance hs
  · exact blockInv_runEdge h.advance _

end Sys2Proof.Machine
end

section
/-!
PROOFS. What a step leaves of the configuration and of the line: a configuration register changes only by its own command
(10_state.md R24-R28), and a diagnostic build drives no line (10_state.md R36; 43_diagnostic_mode.md R117).
-/

namespace Sys2Proof.Machine

/-! ### The configuration -/

/-- The four configuration registers are the same in `t` as in `s`. -/
structure SameConfig (s t : State) : Prop where
  line : t.line = s.line
  house : t.house = s.house
  channel : t.channel = s.channel
  rep : t.rep = s.rep

theorem SameConfig.refl (s : State) : SameConfig s s := ⟨rfl, rfl, rfl, rfl⟩

theorem sameConfig_countOr {s t : State} (h : SameConfig s t) : SameConfig s (countOr s t) := by
  unfold countOr
  split
  · exact h
  · exact ⟨rfl, rfl, rfl, rfl⟩

theorem sameConfig_endSync (s : State) : SameConfig s (endSync s) := by
  unfold endSync
  split <;> exact ⟨rfl, rfl, rfl, rfl⟩

theorem sameConfig_endBit (s : State) : SameConfig s (endBit s) := by
  unfold endBit
  split <;> exact ⟨rfl, rfl, rfl, rfl⟩

theorem sameConfig_tickEdge (s : State) : SameConfig s (tickEdge s) := by
  unfold tickEdge
  cases s.st with
  | idle | dBit | dEol => exact .refl s
  | arm => exact ⟨rfl, rfl, rfl, rfl⟩
  | syncH | bitH => exact sameConfig_countOr ⟨rfl, rfl, rfl, rfl⟩
  | syncL => exact sameConfig_countOr (sameConfig_endSync s)
  | bitL => exact sameConfig_countOr (sameConfig_endBit s)

theorem sameConfig_transferEdge (s : State) : SameConfig s (transferEdge s) := by
  unfold transferEdge bitTransferred eolTransferred
  cases s.st with
  | dBit | dEol => dsimp only; split <;> exact ⟨rfl, rfl, rfl, rfl⟩
  | idle | arm | syncH | syncL | bitH | bitL => exact .refl s

/-- The block's own edge writes no configuration register (10_state.md R28). -/
theorem sameConfig_runEdge (p : Inputs) (s : State) : SameConfig s (runEdge p s) := by
  cases hd : s.build.diag with
  | false =>
    rw [runEdge_transmit hd, transmitEdge]
    split
    · obtain ⟨hl, hh, hc, hr⟩ := sameConfig_tickEdge (clearDone s)
      exact ⟨hl, hh, hc, hr⟩
    · exact ⟨rfl, rfl, rfl, rfl⟩
  | true =>
    rw [runEdge_diag hd, diagEdge]
    split
    · obtain ⟨hl, hh, hc, hr⟩ := sameConfig_transferEdge (clearDone s)
      exact ⟨hl, hh, hc, hr⟩
    · exact ⟨rfl, rfl, rfl, rfl⟩

/-- Settles O23: the block's own edge leaves the configuration, and a command taken writes its own register or none. -/
theorem configurationChangesOnlyByItsCommand : Obligations.ConfigurationChangesOnlyByItsCommand := by
  intro s t hst hrst
  obtain ⟨-, ⟨hr, -⟩ | ⟨-, -, hs, hv, he⟩ | ⟨-, -, -, rfl⟩⟩ := step_cases hst
  · simp [hrst] at hr
  · have hacc : accepting (inputsAt s) s = true := by simp [accepting, hv, cmdReady_iff, hs]
    have ht := exec_taken (s := advance s) hs he
    generalize decode (inputsAt s).cmdWord = i at ht
    cases ht with
    | send tag p htag => simp
    | setLine l => simp [hacc]
    | setAddress h c => simp [hacc]
    | setRepeat n => simp [hacc]
    | reserved op => simp
  · obtain ⟨hl, hh, hc, hr⟩ := sameConfig_runEdge (inputsAt s) (advance s)
    simp [hl, hh, hc, hr]

/-! ### The line of a diagnostic build -/

/-- No transfer writes `OUT`. -/
@[simp] theorem transferEdge_out (s : State) : (transferEdge s).out = s.out := by
  unfold transferEdge bitTransferred eolTransferred
  cases s.st with
  | dBit | dEol => dsimp only; split <;> rfl
  | idle | arm | syncH | syncL | bitH | bitL => rfl

theorem diagEdge_out (p : Inputs) (s : State) : (diagEdge p s).out = s.out := by
  unfold diagEdge
  split <;> simp

/-- No command writes `OUT`. -/
theorem Taken.out_eq {s t : State} {i : Instr} (h : Taken s i t) : t.out = s.out := by
  cases h with
  | send tag p _ => exact acceptSend_out tag p s
  | setLine | setAddress | setRepeat | reserved => rfl

/-- In a diagnostic build no step writes `OUT` but a reset, which sets it to 0. -/
theorem step_out_diag {s t : State} (hd : s.build.diag = true) (h : step s = .next t) :
    t.out = if (inputsAt s).rst then false else s.out := by
  obtain ⟨-, ⟨hr, rfl⟩ | ⟨hr, -, hs, -, he⟩ | ⟨hr, -, -, rfl⟩⟩ := step_cases h
  · simp [hr]
  · rw [(exec_taken (s := advance s) hs he).out_eq]
    simp [hr]
  · rw [runEdge_diag ((advance_build_diag s).trans hd), diagEdge_out]
    simp [hr]

/-- A diagnostic build's step reads every input but `us_tick` (R117). -/
theorem step_diag_usTick {s : State} (hd : s.build.diag = true) (p : Inputs) (rest : List Inputs) (tick : Bool) :
    step { s with inputs := { p with usTick := tick } :: rest } = step { s with inputs := p :: rest } := by
  have hrun : ∀ q : Inputs, runEdge q (advance { s with inputs := q :: rest }) =
      diagEdge q { s with inputs := rest, edges := s.edges + 1 } := fun q =>
    runEdge_diag (s := advance { s with inputs := q :: rest }) hd q
  unfold step
  rw [inputsAt_cons, inputsAt_cons, hrun, hrun]
  rfl

/-- Settles O44: `us_tick` is not read, and nothing raises the line that the invariant has at 0. -/
theorem diagnosticBuildDrivesNoLine : Obligations.DiagnosticBuildDrivesNoLine := by
  intro s p rest tick hd
  refine ⟨step_diag_usTick hd p rest tick, fun h => h.out_diag hd, fun t ht => ?_⟩
  have hout := step_out_diag (s := { s with inputs := p :: rest }) hd ht
  rw [inputsAt_cons] at hout
  refine ⟨hout, fun h => hout.trans ?_⟩
  split
  · rfl
  · exact h.out_diag hd

end Sys2Proof.Machine
end

section
/-!
PROOFS. No working register leaks from one send into the next (10_state.md R40). `live s` clears the registers that are
dead in the control state of `s`: those that are written before they are read again, and `DONE`, which no rule reads. The
step of a state is, up to dead registers, the step of its live part, and what is seen on the line and at the sink is seen
of the live part. Idle blocks that agree on the build and the configuration have the same live part.
-/

namespace Sys2Proof.Machine

/-- The state with its dead registers cleared. `DONE` is read by no rule; in `IDLE` and `ARM` the accept edge and the
first sync have yet to load the working registers; over a sync pulse the repetition to come has yet to load those of its
bits; `EOLI` is loaded at the start of the line break. -/
def live (s : State) : State :=
  match s.st with
  | .idle => { s with done := false, frame := 0, bi := 0, cur := false, par := false, rr := 0, cnt := 0, eoli := 0 }
  | .arm => { s with done := false, bi := 0, cur := false, par := false, cnt := 0, eoli := 0 }
  | .syncH | .syncL => { s with done := false, bi := 0, cur := false, par := false, eoli := 0 }
  | .bitH | .bitL => { s with done := false, eoli := 0 }
  | .dBit => { s with done := false, cur := false, cnt := 0, eoli := 0 }
  | .dEol => { s with done := false, cur := false, cnt := 0 }

/-! ### What is live in every control state -/

@[simp] theorem live_build (s : State) : (live s).build = s.build := by unfold live; split <;> rfl
@[simp] theorem live_st (s : State) : (live s).st = s.st := by unfold live; split <;> rfl
@[simp] theorem live_out (s : State) : (live s).out = s.out := by unfold live; split <;> rfl
@[simp] theorem live_inputs (s : State) : (live s).inputs = s.inputs := by unfold live; split <;> rfl
@[simp] theorem live_edges (s : State) : (live s).edges = s.edges := by unfold live; split <;> rfl

@[simp] theorem live_clearDone (s : State) : live (clearDone s) = live s := by
  unfold live
  rw [clearDone_st]
  split <;> rfl

@[simp] theorem live_live (s : State) : live (live s) = live s := by
  cases hs : s.st <;> simp [live, hs]

theorem live_advance (s : State) : live (advance s) = advance (live s) := by
  unfold live
  rw [advance_st]
  split <;> rfl

@[simp] theorem inputsAt_live (s : State) : inputsAt (live s) = inputsAt s := by
  simp [inputsAt]

@[simp] theorem accepting_live (p : Inputs) (s : State) : accepting p (live s) = accepting p s := by
  simp [accepting, cmdReady]

theorem live_bi_le (s : State) : (live s).bi.toNat ≤ s.bi.toNat := by
  unfold live
  split <;> simp

theorem live_eoli_le (s : State) : (live s).eoli ≤ s.eoli := by
  unfold live
  split <;> simp

/-- Clearing a dead register leaves every register in its range. -/
theorem live_legal {s : State} (h : s.legal = true) : (live s).legal = true := by
  obtain ⟨hctl, hbi, heol⟩ := (legal_iff s).mp h
  refine (legal_iff _).mpr ⟨by simpa using hctl, ?_, ?_⟩
  · exact (live_bi_le s).trans hbi
  · simpa using (live_eoli_le s).trans_lt heol

/-! ### An edge reads live registers alone -/

/-- A segment under way counts the same ticks, whatever the dead registers hold. -/
theorem live_countOr {s t u : State} (hs : s.st ∈ [Ctl.syncH, .syncL, .bitH, .bitL]) (h : live t = live u) :
    live (countOr s t) = live (countOr (live s) u) := by
  have hcnt : (live s).cnt = s.cnt := by
    simp only [List.mem_cons, List.not_mem_nil, or_false] at hs
    rcases hs with hc | hc | hc | hc <;> simp [live, hc]
  have hrun : live { s with cnt := s.cnt - 1 } = live { live s with cnt := (live s).cnt - 1 } := by
    simp only [List.mem_cons, List.not_mem_nil, or_false] at hs
    rcases hs with hc | hc | hc | hc <;> simp [live, hc]
  unfold countOr
  rw [hcnt] at hrun ⊢
  split
  · exact h
  · exact hrun

/-- The end of a sync pulse reads neither the accumulator nor the last bit: bit 49 starts from 0 (41_codeword_framer.md
R91, R95). -/
theorem live_endSync {s : State} (hs : s.st = .syncL) : live (endSync s) = live (endSync (live s)) := by
  have hrr : (live s).rr = s.rr := by simp [live, hs]
  unfold endSync
  rw [hrr]
  split <;> simp [live, hs, startBit, startSegment, bitValue, parNext, parBase]

theorem live_endBit {s : State} (hs : s.st = .bitL) : live (endBit s) = live (endBit (live s)) := by
  have hbi : (live s).bi = s.bi := by simp [live, hs]
  unfold endBit
  rw [hbi]
  split <;> simp [live, hs, startSync, startBit, startSegment]

theorem live_tickEdge (s : State) : live (tickEdge s) = live (tickEdge (live s)) := by
  unfold tickEdge
  rw [live_st]
  cases hs : s.st with
  | idle | dBit | dEol => simp [live, hs]
  | arm => simp [live, hs, startSync, startSegment]
  | syncH => exact live_countOr (by simp [hs]) (by simp [live, hs, startSegment])
  | syncL => exact live_countOr (by simp [hs]) (live_endSync hs)
  | bitH => exact live_countOr (by simp [hs]) (by simp [live, hs, startSegment])
  | bitL => exact live_countOr (by simp [hs]) (live_endBit hs)

theorem live_bitTransferred {s : State} (hs : s.st = .dBit) :
    live (bitTransferred s) = live (bitTransferred (live s)) := by
  have hbi : (live s).bi = s.bi := by simp [live, hs]
  unfold bitTransferred
  rw [hbi]
  split <;> simp [live, hs]

theorem live_eolTransferred {s : State} (hs : s.st = .dEol) :
    live (eolTransferred s) = live (eolTransferred (live s)) := by
  have heol : (live s).eoli = s.eoli := by simp [live, hs]
  unfold eolTransferred
  rw [heol, live_build]
  split <;> simp [live, hs]

theorem live_transferEdge (s : State) : live (transferEdge s) = live (transferEdge (live s)) := by
  unfold transferEdge
  rw [live_st]
  cases hs : s.st with
  | dBit => exact live_bitTransferred hs
  | dEol => exact live_eolTransferred hs
  | idle | arm | syncH | syncL | bitH | bitL => simp [live, hs]

theorem live_runEdge (p : Inputs) (s : State) : live (runEdge p s) = live (runEdge p (live s)) := by
  unfold runEdge transmitEdge diagEdge
  rw [live_build]
  split <;> split
  · rw [live_transferEdge, live_transferEdge (clearDone (live s))]
    simp
  · simp
  · rw [live_tickEdge, live_tickEdge (clearDone (live s))]
    simp
  · simp

/-- The accept edge of a send writes every register that is live in its first control state, but those of the
configuration, from the configuration and the operands alone (41_codeword_framer.md R85, R86). -/
theorem live_acceptSend {s : State} (hs : s.st = .idle) (tag : Byte) (p : Payload) :
    live (acceptSend tag p s) = live (acceptSend tag p (live s)) := by
  cases hd : s.build.diag with
  | false =>
    rw [acceptSend_transmit hd, acceptSend_transmit ((congrArg _ (live_build s)).trans hd)]
    simp [live, hs, loadSend, effRepeat]
  | true =>
    rw [acceptSend_diag hd, acceptSend_diag ((congrArg _ (live_build s)).trans hd)]
    simp [live, hs, loadSend, effRepeat]

theorem live_whenReady {s t u : State} (hs : s.st = .idle) (h : live t = live u) :
    ∃ t' u', whenReady s t = .next t' ∧ whenReady (live s) u = .next u' ∧ live t' = live u' :=
  ⟨t, u, whenReady_idle hs t, whenReady_idle ((live_st s).trans hs) u, h⟩

/-- A ready block and its live part take a command with the same live result. -/
theorem live_exec (i : Instr) {s : State} (hs : s.st = .idle) :
    ∃ t u, exec i s = .next t ∧ exec i (live s) = .next u ∧ live t = live u := by
  cases i with
  | sendB00 | sendB01 | sendB02 | sendB03 | sendB04 | sendB05 => exact live_whenReady hs (live_acceptSend hs _ _)
  | setLine | setAddress | setRepeat => exact live_whenReady hs (by simp [live, hs, clearDone])
  | reserved => exact live_whenReady hs (by simp)

/-- A block that meets the invariant steps, and its live part steps with it. -/
theorem live_step {s : State} (h : BlockInv s) :
    ∃ t u, step s = .next t ∧ step (live s) = .next u ∧ live t = live u := by
  have hb' : buildLegal (live s).build = true := by simpa using h.build
  cases hr : (inputsAt s).rst with
  | true =>
    refine ⟨_, _, step_reset h.build hr, step_reset hb' (by simpa using hr), ?_⟩
    simp [resetEdge]
  | false =>
    have ho : edgeOpen s := ⟨h.build, h.legal, hr⟩
    have ho' : edgeOpen (live s) := ⟨hb', live_legal h.legal, by simpa using hr⟩
    cases ha : accepting (inputsAt s) s with
    | true =>
      have hs : s.st = .idle := by
        simp only [accepting, Bool.and_eq_true, cmdReady_iff] at ha
        exact ha.2
      rw [step_accept ho ha, step_accept ho' (by simpa using ha), inputsAt_live, ← live_advance]
      exact live_exec _ hs
    | false =>
      refine ⟨_, _, step_run ho ha, step_run ho' (by simpa using ha), ?_⟩
      rw [inputsAt_live, ← live_advance]
      exact live_runEdge _ _

/-! ### What is seen -/

@[simp] theorem diagValid_live (s : State) : diagValid (live s) = diagValid s := by
  simp [diagValid]

@[simp] theorem transferring_live (s : State) : transferring (live s) = transferring s := by
  simp [transferring]

@[simp] theorem diagData_live (s : State) : diagData (live s) = diagData s := by
  unfold diagData
  rw [diagValid_live, live_st, live_build]
  cases hs : s.st with
  | dBit | dEol => simp [live, hs]
  | idle | arm | syncH | syncL | bitH | bitL => rfl

/-- Blocks with the same live part step together. -/
theorem step_of_live_eq {s s' : State} (h : BlockInv s) (h' : BlockInv s') (hl : live s = live s') :
    ∃ t t', step s = .next t ∧ step s' = .next t' ∧ live t = live t' := by
  obtain ⟨t, u, ht, hu, htu⟩ := live_step h
  obtain ⟨t', u', ht', hu', htu'⟩ := live_step h'
  rw [hl, hu'] at hu
  cases hu
  exact ⟨t, t', ht, ht', htu.trans htu'.symm⟩

/-- Blocks with the same live part show the same on the line and at the sink. -/
theorem traces_of_live_eq {s s' : State} (h : BlockInv s) (h' : BlockInv s') (hl : live s = live s') (n : Nat) :
    lineTrace n s = lineTrace n s' ∧ textTrace n s = textTrace n s' := by
  induction n generalizing s s' with
  | zero => exact ⟨rfl, rfl⟩
  | succ n ih =>
    obtain ⟨t, t', ht, ht', htt⟩ := step_of_live_eq h h' hl
    obtain ⟨hline, htext⟩ := ih (stepKeepsInv s t h ht) (stepKeepsInv s' t' h' ht') htt
    have hin : inputsAt s = inputsAt s' := by rw [← inputsAt_live s, hl, inputsAt_live]
    have hout : ookOut t = ookOut t' := by rw [ookOut, ← live_out, htt, live_out, ookOut]
    have htr : transferring s = transferring s' := by rw [← transferring_live s, hl, transferring_live]
    have hdata : diagData s = diagData s' := by rw [← diagData_live s, hl, diagData_live]
    simp only [lineTrace, textTrace, ht, ht', hline, htext, hin, hout, htr, hdata, and_self]

/-- Settles O51: in `IDLE` the build, the configuration, `OUT` and the environment's part are all that is live. -/
theorem workingRegistersDoNotLeak : Obligations.WorkingRegistersDoNotLeak := by
  intro s s' h h' hs hs' hbuild hline hhouse hchannel hrep hinputs hedges n
  have hout : ∀ {u : State}, BlockInv u → u.st = .idle → u.out = false := fun hu hi =>
    hu.outLow (by simp [hi]) (by simp [hi])
  have hlive : live s = live s' := by
    simp [live, hs, hs', hbuild, hline, hhouse, hchannel, hrep, hinputs, hedges, hout h hs, hout h' hs']
  exact traces_of_live_eq h h' hlive n

end Sys2Proof.Machine
end

section
/-!
PROOFS. A command as the word that carries it: the decoder undoes the encoder (30_encoding.md R61-R63, R68), and a word
decodes to a send exactly when its opcode is at most 5 (R66).
-/

namespace Sys2Proof

/-- Byte `k` of a word put together from its opcode and its data (R60, R62). -/
theorem dataByte_cmdOf (op : Byte) (data : Payload) {k : Nat} (hk : k < 4) :
    dataByte (cmdOf op data) k = data.extractLsb' (8 * k) 8 :=
  BitVec.extractLsb'_append_eq_of_add_le (by omega)

@[simp] theorem dataByte_zero_cmdOf (op : Byte) (x : BitVec 24) (a : Byte) : dataByte (cmdOf op (x ++ a)) 0 = a :=
  (dataByte_cmdOf op _ (by omega)).trans BitVec.extractLsb'_append_eq_right

@[simp] theorem dataByte_one_cmdOf (op : Byte) (x : BitVec 16) (a b : Byte) :
    dataByte (cmdOf op (x ++ a ++ b)) 1 = a :=
  (dataByte_cmdOf op _ (by omega)).trans <|
    (BitVec.extractLsb'_append_eq_of_le (by omega)).trans BitVec.extractLsb'_append_eq_right

@[simp] theorem dataByte_two_cmdOf (op a b c d : Byte) : dataByte (cmdOf op (a ++ b ++ c ++ d)) 2 = b :=
  (dataByte_cmdOf op _ (by omega)).trans <|
    (BitVec.extractLsb'_append_eq_of_le (by omega)).trans <|
      (BitVec.extractLsb'_append_eq_of_le (by omega)).trans BitVec.extractLsb'_append_eq_right

@[simp] theorem dataByte_three_cmdOf (op a b c d : Byte) : dataByte (cmdOf op (a ++ b ++ c ++ d)) 3 = a :=
  (dataByte_cmdOf op _ (by omega)).trans <|
    (BitVec.extractLsb'_append_eq_of_le (by omega)).trans <|
      (BitVec.extractLsb'_append_eq_of_le (by omega)).trans BitVec.extractLsb'_append_eq_left

@[simp] theorem dataHigh_cmdOf (op : Byte) (a b : Half) : dataHigh (cmdOf op (a ++ b)) = a :=
  (BitVec.extractLsb'_append_eq_of_add_le (by omega)).trans BitVec.extractLsb'_append_eq_left

@[simp] theorem dataLow_cmdOf (op : Byte) (a b : Half) : dataLow (cmdOf op (a ++ b)) = b :=
  (BitVec.extractLsb'_append_eq_of_add_le (by omega)).trans BitVec.extractLsb'_append_eq_right

/-- A reserved opcode is no other command's (R65). -/
theorem reservedOpcode_ne {op : Byte} (h : reservedOpcode op = true) (k : Byte) (hk : reservedOpcode k = false) :
    op ≠ k := by
  rintro rfl
  simp [hk] at h

/-- Every command the encoding has decodes from its own word (R61-R63, R68). -/
theorem decode_encode {i : Instr} (h : i.wellFormed = true) : decode (encode i) = i := by
  cases i with
  | sendB00 | sendB01 | sendB02 | sendB03 | sendB04 => simp [encode, decode]
  | sendB05 a b c d => simp [encode, decode, dataByte_zero_cmdOf _ (a ++ b ++ c) d]
  | setLine | setAddress | setRepeat => simp [encode, decode]
  | reserved op =>
    have hne := reservedOpcode_ne (op := op) h
    simp (disch := decide) only [encode, decode, opcodeField_cmdOf, hne, if_false]

/-- The opcodes of the six sends (R65, R66). -/
theorem sendOpcode_iff : ∀ op : Byte, op.toNat ≤ 5 ↔ op = 0 ∨ op = 1 ∨ op = 2 ∨ op = 3 ∨ op = 4 ∨ op = 5 := by
  decide

namespace Machine

/-- Is the command one of the six sends? -/
def isSend : Instr → Bool
  | .sendB00 _ | .sendB01 _ | .sendB02 _ | .sendB03 _ _ | .sendB04 _ _ | .sendB05 _ _ _ _ => true
  | .setLine _ | .setAddress _ _ | .setRepeat _ | .reserved _ => false

/-- A word decodes to a send exactly when its opcode is at most 5 (R66, R68). -/
theorem isSend_decode (w : CmdWord) : isSend (decode w) = decide ((opcodeField w).toNat ≤ 5) := by
  by_cases hw : (opcodeField w).toNat ≤ 5
  · rw [decide_eq_true hw]
    rcases (sendOpcode_iff _).mp hw with ho | ho | ho | ho | ho | ho <;> simp only [decode, ho] <;> rfl
  · rw [decide_eq_false hw]
    rw [sendOpcode_iff] at hw
    push Not at hw
    obtain ⟨h0, h1, h2, h3, h4, h5⟩ := hw
    unfold decode
    simp only [h0, h1, h2, h3, h4, h5, if_false]
    split_ifs <;> rfl

/-- Where the block is ready, a command that is no send completes in `IDLE`, and there again with no further effect
(20_memory.md R51). -/
theorem exec_not_send {i : Instr} (hi : isSend i = false) {s : State} (hs : s.st = .idle) :
    ∃ t, exec i s = .next t ∧ t.st = .idle ∧ exec i t = .next t := by
  cases i with
  | sendB00 | sendB01 | sendB02 | sendB03 | sendB04 | sendB05 => cases hi
  | setLine | setAddress | setRepeat | reserved => exact ⟨_, whenReady_idle hs _, hs, whenReady_idle (by exact hs) _⟩

/-- Where a word leaves a ready diagnostic build: in `D_BIT` if it is a send, else in `IDLE` (43_diagnostic_mode.md R119,
R126). -/
theorem exec_decode_st_diag (w : CmdWord) {s t : State} (hs : s.st = .idle) (hd : s.build.diag = true)
    (he : exec (decode w) s = .next t) : t.st = if (opcodeField w).toNat ≤ 5 then .dBit else .idle := by
  by_cases hw : (opcodeField w).toNat ≤ 5
  · obtain ⟨p, hp⟩ := exec_decode_send hw hs
    cases hp.symm.trans he
    rw [if_pos hw, acceptSend_diag hd]
  · obtain ⟨u, hu, hust, -⟩ := exec_not_send ((isSend_decode w).trans (decide_eq_false hw)) hs
    cases hu.symm.trans he
    rw [if_neg hw, hust]

end Machine

end Sys2Proof
end

section
/-!
PROOFS. The command port (20_memory.md R50-R52): an accepting edge runs the decoded command, an edge that accepts nothing
reads neither `cmd_valid` nor `cmd_word`, a configuration command is idempotent, and a diagnostic build waits in `IDLE`.
-/

namespace Sys2Proof.Machine

/-- An open block in `IDLE` to which a command is presented runs it (R50). -/
theorem step_idle_accept {s : State} (h : edgeOpen s) (hs : s.st = .idle) (hv : (inputsAt s).cmdValid = true) :
    step s = exec (decode (inputsAt s).cmdWord) (advance s) :=
  step_accept h (by simp [accepting, hv, cmdReady_iff, hs])

/-- Settles O11: the step is `step_idle_accept`, and the word presented decodes to its command. -/
theorem stepRunsDecodedCommand : Obligations.StepRunsDecodedCommand := by
  refine ⟨fun s h hs hv => step_idle_accept h hs hv, fun i s hi hb hl hs => ?_⟩
  have hopen : edgeOpen { s with inputs := presenting (encode i) :: s.inputs } :=
    ⟨hb, (legal_congr rfl rfl rfl rfl).trans hl, rfl⟩
  have hstep := step_idle_accept hopen hs rfl
  rwa [inputsAt_cons, show (presenting (encode i)).cmdWord = encode i from rfl, decode_encode hi] at hstep

/-- The block's own edge reads `us_tick` and `diag_ready` alone. -/
theorem runEdge_congr {p q : Inputs} (ht : p.usTick = q.usTick) (hd : p.diagReady = q.diagReady) (s : State) :
    runEdge p s = runEdge q s := by
  simp only [runEdge, diagEdge, transmitEdge, ht, hd]

/-- A step that accepts no command reads neither `cmd_valid` nor `cmd_word` (R50, R52). -/
theorem step_congr_of_not_accepting {s : State} {p : Inputs} {v : Bool} {w : CmdWord}
    (hp : accepting p s = false) (hq : accepting { p with cmdValid := v, cmdWord := w } s = false)
    (rest : List Inputs) :
    step { s with inputs := { p with cmdValid := v, cmdWord := w } :: rest } = step { s with inputs := p :: rest } := by
  have hacc : ∀ q r, accepting q { s with inputs := r } = accepting q s := fun _ _ => rfl
  unfold step
  simp only [inputsAt_cons, hacc, hp, hq, Bool.false_eq_true, if_false]
  rw [runEdge_congr (q := p) rfl rfl]
  rfl

/-- Settles O12: a busy block accepts nothing, nor does any block without `cmd_valid`. -/
theorem commandPortIsIgnoredWhileBusy : Obligations.CommandPortIsIgnoredWhileBusy := by
  constructor
  · intro s p rest v w hs
    have hbusy : ∀ q, accepting q s = false := fun q => by simp [accepting, cmdReady, hs]
    exact step_congr_of_not_accepting (hbusy _) (hbusy _) rest
  · intro s p rest w hv
    have hnone : ∀ q : Inputs, q.cmdValid = false → accepting q s = false := fun q hq => by simp [accepting, hq]
    exact step_congr_of_not_accepting (v := p.cmdValid) (w := w) (hnone p hv) (hnone _ hv) rest

/-- Settles O22: a command that is none of the six sends is idempotent by `exec_not_send`. -/
theorem configurationIsIdempotent : Obligations.ConfigurationIsIdempotent := by
  intro i s hs h0 h1 h2 h3 h4 h5
  have hi : isSend i = false := by
    cases i with
    | sendB00 f => exact absurd rfl (h0 f)
    | sendB01 v => exact absurd rfl (h1 v)
    | sendB02 u => exact absurd rfl (h2 u)
    | sendB03 a b => exact absurd rfl (h3 a b)
    | sendB04 a b => exact absurd rfl (h4 a b)
    | sendB05 a b c d => exact absurd rfl (h5 a b c d)
    | setLine | setAddress | setRepeat | reserved => rfl
  obtain ⟨t, ht, -, htt⟩ := exec_not_send hi hs
  exact ⟨t, ht, htt⟩

/-- Settles O52: with a command presented the step is the command, which leaves `OUT`; with none the block holds. -/
theorem diagnosticIdleWaitsForACommand : Obligations.DiagnosticIdleWaitsForACommand := by
  intro s h hs hd
  refine ⟨(cmdReady_iff s).mpr hs, by simp [diagValid, hs], fun hv => ?_, fun hv => step_idle_hold h hs hv⟩
  obtain ⟨t, he, ht⟩ := exec_idle (decode (inputsAt s).cmdWord) (s := advance s) hs
  exact ⟨t, (step_idle_accept h hs hv).trans he, he, ht.out_eq, exec_decode_st_diag _ (s := advance s) hs hd he⟩

end Sys2Proof.Machine
end

section
/-!
PROOFS. The encoding of commands (30_encoding.md R60-R68): what the decoder answers for each opcode, and that the
encoder and the decoder undo each other on the bits a command keeps.
-/

namespace Sys2Proof

/-- Settles O1: the decoder reads each operand back from the place the encoder put it. -/
theorem decodeEncodeRoundTrip : Obligations.DecodeEncodeRoundTrip := fun _ h => decode_encode h

/-! ### The opcode map -/

/-- An opcode is a send's, one of the three configuration opcodes, or reserved (R61, R65). -/
theorem opcode_cases : ∀ op : Byte,
    op.toNat ≤ 5 ∨ op = 0x80 ∨ op = 0x81 ∨ op = 0x82 ∨ reservedOpcode op = true := by
  decide

theorem decode_setLine {w : CmdWord} (h : opcodeField w = 0x80) : decode w = .setLine (dataByte w 0) := by
  simp [decode, h]

theorem decode_setAddress {w : CmdWord} (h : opcodeField w = 0x81) :
    decode w = .setAddress (dataByte w 1) (dataByte w 0) := by
  simp [decode, h]

theorem decode_setRepeat {w : CmdWord} (h : opcodeField w = 0x82) : decode w = .setRepeat (dataByte w 0) := by
  simp [decode, h]

theorem decode_reserved {w : CmdWord} (h : reservedOpcode (opcodeField w) = true) :
    decode w = .reserved (opcodeField w) := by
  have hne := reservedOpcode_ne h
  simp (disch := decide) only [decode, hne, if_false]

/-- A word whose opcode is a send's encodes again as itself: a send has no ignored bit (R62). -/
theorem encode_decode_send {w : CmdWord} (h : (opcodeField w).toNat ≤ 5) : encode (decode w) = w := by
  have hw := cmdOf_fields w
  rcases (sendOpcode_iff _).mp h with ho | ho | ho | ho | ho | ho <;> rw [ho] at hw <;>
    simpa [decode, ho, encode, dataHalves, dataBytes] using hw

/-- A word whose opcode is a send's is the send of that tag and payload `w[31:0]`, whatever form its operands have
(R68; 40_send_commands.md R75). -/
theorem Machine.exec_decode_sendOpcode {w : CmdWord} (h : (opcodeField w).toNat ≤ 5) (s : Machine.State) :
    Machine.exec (decode w) s = Machine.whenReady s (Machine.acceptSend (opcodeField w) (dataField w) s) := by
  rcases (sendOpcode_iff _).mp h with ho | ho | ho | ho | ho | ho <;> simp only [decode, ho]
  case inl | inr.inl | inr.inr.inl => rfl
  case inr.inr.inr.inl | inr.inr.inr.inr.inl => rw [← dataHalves w, ← Machine.packPair_append]; rfl
  case inr.inr.inr.inr.inr => rw [← dataBytes w, ← Machine.packB05_append]; rfl

theorem opcodeField_toNat (w : CmdWord) : (opcodeField w).toNat = w.toNat / 2 ^ 32 := by
  rw [opcodeField, BitVec.extractLsb'_toNat, Nat.shiftRight_eq_div_pow]
  omega

/-- Settles O3: one lemma of the opcode map for each clause. -/
theorem decoderFollowsOpcodeMap : Obligations.DecoderFollowsOpcodeMap := by
  intro w
  have hop : ∀ k : Byte, w.toNat / 2 ^ 32 = k.toNat → opcodeField w = k := fun k hk =>
    BitVec.eq_of_toNat_eq ((opcodeField_toNat w).trans hk)
  refine ⟨fun h s => Machine.exec_decode_sendOpcode ((opcodeField_toNat w).trans_le h) s,
    fun h => decode_setLine (hop _ h), fun h => decode_setAddress (hop _ h), fun h => decode_setRepeat (hop _ h), ?_⟩
  rintro ⟨h5, h80, h81, h82⟩
  refine decode_reserved ?_
  rw [← opcodeField_toNat] at h5 h80 h81 h82
  rcases opcode_cases (opcodeField w) with h | h | h | h | h
  · omega
  · exact absurd (congrArg BitVec.toNat h) h80
  · exact absurd (congrArg BitVec.toNat h) h81
  · exact absurd (congrArg BitVec.toNat h) h82
  · exact h

/-! ### The bits a command keeps -/

/-- A mask that holds the whole opcode acts on the data alone (R60). -/
theorem and_cmdOf_mask (w : CmdWord) (m : Payload) :
    w &&& cmdOf 0xFF m = cmdOf (opcodeField w) (dataField w &&& m) := by
  conv_lhs => rw [← cmdOf_fields w]
  rw [cmdOf, cmdOf, BitVec.and_append, show (0xFF : Byte) = BitVec.allOnes 8 from rfl, BitVec.and_allOnes, cmdOf]

theorem dataField_and_byte (w : CmdWord) : dataField w &&& 0xFF = 0#24 ++ dataByte w 0 := by
  rw [← dataBytes, show (0xFF : Payload) = 0#24 ++ BitVec.allOnes 8 from rfl, BitVec.and_append, BitVec.and_allOnes,
    BitVec.and_zero]

theorem dataField_and_twoBytes (w : CmdWord) : dataField w &&& 0xFFFF = 0#16 ++ dataByte w 1 ++ dataByte w 0 := by
  rw [← dataBytes, show (0xFFFF : Payload) = 0#16 ++ BitVec.allOnes 8 ++ BitVec.allOnes 8 from rfl, BitVec.and_append,
    BitVec.and_append, BitVec.and_allOnes, BitVec.and_allOnes, BitVec.and_zero]

/-- A send keeps every bit, and a reserved command its opcode alone (R62, R64). -/
theorem fieldMask_send : ∀ op : Byte, op.toNat ≤ 5 → fieldMask op = BitVec.allOnes 40 := by
  decide

theorem fieldMask_reserved : ∀ op : Byte, reservedOpcode op = true → fieldMask op = cmdOf 0xFF 0 := by
  decide

/-- Settles O2: an opcode at a time, the operand fields are the data under the mask. -/
theorem encodeDecodeKeepsFields : Obligations.EncodeDecodeKeepsFields := by
  intro w
  rcases opcode_cases (opcodeField w) with h | h | h | h | h
  · rw [encode_decode_send h, fieldMask_send _ h, BitVec.and_allOnes]
  · rw [decode_setLine h, h, show fieldMask 0x80 = cmdOf 0xFF 0xFF from rfl, and_cmdOf_mask, dataField_and_byte, h]
    rfl
  · rw [decode_setAddress h, h, show fieldMask 0x81 = cmdOf 0xFF 0xFFFF from rfl, and_cmdOf_mask,
      dataField_and_twoBytes, h]
    rfl
  · rw [decode_setRepeat h, h, show fieldMask 0x82 = cmdOf 0xFF 0xFF from rfl, and_cmdOf_mask, dataField_and_byte, h]
    rfl
  · rw [decode_reserved h, fieldMask_reserved _ h, and_cmdOf_mask, show (0 : Payload) = 0#32 from rfl, BitVec.and_zero]
    rfl

end Sys2Proof
end

section
/-!
PROOFS. What the encoding leaves without effect: the bits a command ignores and the reserved opcodes (30_encoding.md
R64-R66).
-/

namespace Sys2Proof.Machine

/-! ### Ignored bits -/

theorem opcodeField_effectMask (op : Byte) : opcodeField (effectMask op) = BitVec.allOnes 8 := by
  unfold effectMask fieldMask
  split_ifs <;> rfl

/-- A mask of effective bits keeps the opcode. -/
theorem opcodeField_and_effectMask (w : CmdWord) (op : Byte) : opcodeField (w &&& effectMask op) = opcodeField w := by
  rw [opcodeField, BitVec.extractLsb'_and, ← opcodeField, ← opcodeField, opcodeField_effectMask, BitVec.and_allOnes]

theorem dataByte_and (w m : CmdWord) (k : Nat) : dataByte (w &&& m) k = dataByte w k &&& dataByte m k :=
  BitVec.extractLsb'_and

/-- The house register takes the two low bits of its operand, the channel register the three low bits of its own (R63;
44_config_commands.md R129). -/
theorem houseBits_and (h : Byte) : houseBits (h &&& 0x03) = houseBits h :=
  BitVec.extractLsb'_and.trans BitVec.and_allOnes

theorem channelBits_and (c : Byte) : channelBits (c &&& 0x07) = channelBits c :=
  BitVec.extractLsb'_and.trans BitVec.and_allOnes

theorem effectMask_send : ∀ op : Byte, op.toNat ≤ 5 → effectMask op = BitVec.allOnes 40 := by
  decide

/-- A word runs as it does with its ignored bits cleared (R64). -/
theorem exec_decode_and_effectMask (w : CmdWord) (s : State) :
    exec (decode (w &&& effectMask (opcodeField w))) s = exec (decode w) s := by
  have hop := opcodeField_and_effectMask w (opcodeField w)
  rcases opcode_cases (opcodeField w) with h | h | h | h | h
  · rw [effectMask_send _ h, BitVec.and_allOnes]
  · rw [decode_setLine h, decode_setLine (hop.trans h), dataByte_and, h,
      show dataByte (effectMask 0x80) 0 = BitVec.allOnes 8 from rfl, BitVec.and_allOnes]
  · rw [decode_setAddress h, decode_setAddress (hop.trans h), dataByte_and, dataByte_and, h,
      show dataByte (effectMask 0x81) 1 = 0x03 from rfl, show dataByte (effectMask 0x81) 0 = 0x07 from rfl]
    simp only [exec, execSetAddress, houseBits_and, channelBits_and]
  · rw [decode_setRepeat h, decode_setRepeat (hop.trans h), dataByte_and, h,
      show dataByte (effectMask 0x82) 0 = BitVec.allOnes 8 from rfl, BitVec.and_allOnes]
  · rw [decode_reserved h, decode_reserved (hop.symm ▸ h), hop]

/-- Words whose commands run alike step every state alike: `step` reads the word by `exec` of its command alone
(20_memory.md R50). -/
theorem step_congr_word {w w' : CmdWord} (h : ∀ s, exec (decode w) s = exec (decode w') s) (s : State) (p : Inputs)
    (rest : List Inputs) :
    step { s with inputs := { p with cmdWord := w } :: rest } =
      step { s with inputs := { p with cmdWord := w' } :: rest } := by
  unfold step
  simp only [inputsAt_cons, h]
  rfl

/-- Settles O6: both words run as the one word of their common effective bits. -/
theorem ignoredBitsHaveNoEffect : Obligations.IgnoredBitsHaveNoEffect := by
  intro w w' h
  have hop : opcodeField w = opcodeField w' := by
    rw [← opcodeField_and_effectMask w (opcodeField w), h, opcodeField_and_effectMask]
  have hexec : ∀ s, exec (decode w) s = exec (decode w') s := fun s => by
    rw [← exec_decode_and_effectMask w, h, hop, exec_decode_and_effectMask]
  exact ⟨hexec, step_congr_word hexec⟩

/-! ### Reserved opcodes -/

/-- A word carries a reserved opcode exactly when it decodes to `RESERVED` (R65, R68). -/
theorem reservedOpcode_iff_decode (w : CmdWord) :
    reservedOpcode (opcodeField w) = true ↔ decode w = .reserved (opcodeField w) := by
  refine ⟨decode_reserved, fun hd => ?_⟩
  rcases opcode_cases (opcodeField w) with h | h | h | h | h
  · have hs := isSend_decode w
    rw [hd, decide_eq_true h] at hs
    cases hs
  · cases (decode_setLine h).symm.trans hd
  · cases (decode_setAddress h).symm.trans hd
  · cases (decode_setRepeat h).symm.trans hd
  · exact h

/-- The two ranges of reserved opcodes, one on each side of `0x80`, have 122 and 125 values (R65). -/
theorem countP_reservedOpcode :
    (List.range 256).countP (fun n => reservedOpcode (BitVec.ofNat 8 n)) = 247 := by
  have hlow : (List.range 128).countP (fun n => reservedOpcode (BitVec.ofNat 8 n)) = 122 := by rfl
  have hhigh : (List.range 128).countP ((fun n => reservedOpcode (BitVec.ofNat 8 n)) ∘ (128 + ·)) = 125 := by rfl
  rw [show 256 = 128 + 128 from rfl, List.range_add, List.countP_append, List.countP_map, hlow, hhigh]

/-- Settles O5: every word completes by `exec_idle`, and `RESERVED` clears `DONE` alone. -/
theorem reservedOpcodesAreAccepted : Obligations.ReservedOpcodesAreAccepted := by
  refine ⟨countP_reservedOpcode, reservedOpcode_iff_decode, fun w s hs => ?_⟩
  obtain ⟨t, ht, -⟩ := exec_idle (decode w) hs
  refine ⟨t, ht, fun hr => ?_⟩
  rw [decode_reserved hr] at ht
  cases ht.symm.trans (whenReady_idle hs (clearDone s))
  rfl

/-- Settles O7: a word of opcode at most 5 is the send of that tag, and any other leaves the block in `IDLE`. -/
theorem tagsAboveFiveAreNeverSent : Obligations.TagsAboveFiveAreNeverSent := by
  intro w s hs
  by_cases hw : (opcodeField w).toNat ≤ 5
  · have hst : (acceptSend (opcodeField w) (dataField w) s).st ≠ .idle := by
      rcases acceptSend_st (opcodeField w) (dataField w) s with h | h <;> simp [h]
    exact ⟨_, (exec_decode_sendOpcode hw s).trans (whenReady_idle hs _), iff_of_true hst hw, fun _ => by simp⟩
  · obtain ⟨t, ht, hidle, -⟩ := exec_not_send ((isSend_decode w).trans (decide_eq_false hw)) hs
    exact ⟨t, ht, iff_of_false (not_not_intro hidle) hw, fun h => absurd hidle h⟩

end Sys2Proof.Machine
end

section
/-!
PROOFS. The command language (30_encoding.md R69-R73): a byte operand in range is that byte, a line is one command, and
`INIT` is two or none.
-/

namespace Sys2Proof.Machine

/-- Settles O4: each row is assembled and decoded. -/
theorem encodedExamplesDecode : Obligations.EncodedExamplesDecode := by
  unfold Obligations.EncodedExamplesDecode
  decide

/-- An unsigned operand written as its value is taken (R69). -/
theorem unsignedField_int {w : Nat} (v : BitVec w) : unsignedField w (.int v.toNat) = some v := by
  have hv : (v.toNat : Int) < 2 ^ w := by exact_mod_cast v.isLt
  simp [unsignedField, hv]

theorem houseBits_toNat (h : Byte) : (houseBits h).toNat = h.toNat % 4 := by
  simp [houseBits]

theorem channelBits_toNat (c : Byte) : (channelBits c).toNat = c.toNat % 8 := by
  simp [channelBits]

/-- A line other than `INIT` is one command, or no line of the language (R69, R71). -/
theorem length_of_assemble {m : Mnemonic} {operands : List Operand} {is : List Instr}
    (h : assemble m operands = some is) (hm : m ≠ .initLine) : is.length = 1 := by
  unfold assemble at h
  split at h
  case h_1 | h_2 | h_3 | h_7 | h_9 =>
    obtain ⟨_, _, ⟨⟩⟩ := Option.bind_eq_some_iff.mp h
    rfl
  case h_4 | h_5 | h_8 =>
    obtain ⟨_, _, h⟩ := Option.bind_eq_some_iff.mp h
    obtain ⟨_, _, ⟨⟩⟩ := Option.bind_eq_some_iff.mp h
    rfl
  case h_6 =>
    obtain ⟨_, _, h⟩ := Option.bind_eq_some_iff.mp h
    obtain ⟨_, _, h⟩ := Option.bind_eq_some_iff.mp h
    obtain ⟨_, _, h⟩ := Option.bind_eq_some_iff.mp h
    obtain ⟨_, _, ⟨⟩⟩ := Option.bind_eq_some_iff.mp h
    rfl
  case h_10 | h_11 => exact absurd rfl hm
  case h_12 => cases h

/-- The two commands of `INIT`, where the block is ready (R71; 44_config_commands.md R128, R129). -/
theorem exec_setLine_idle {s : State} (hs : s.st = .idle) (l : Byte) :
    exec (.setLine l) s = .next { clearDone s with line := l } :=
  whenReady_idle hs _

theorem exec_setAddress_idle {s : State} (hs : s.st = .idle) (h c : Byte) :
    exec (.setAddress h c) s = .next { clearDone s with house := houseBits h, channel := channelBits c } :=
  whenReady_idle hs _

/-- Settles O8: `INIT` is assembled operand by operand, and its two commands run one after the other. -/
theorem initPseudoCommand : Obligations.InitPseudoCommand := by
  refine ⟨fun l h c => ⟨?_, fun b inputs edges => ?_⟩, rfl, fun m operands is => length_of_assemble, ?_⟩
  · simp [assemble, unsignedField_int]
  · exact ⟨_, _, exec_setLine_idle rfl l, exec_setAddress_idle rfl h c, rfl, houseBits_toNat h, channelBits_toNat c⟩
  · exact fun b inputs edges => ⟨rfl, rfl, rfl⟩

end Sys2Proof.Machine
end

section
/-!
PROOFS. The codeword of a send (30_encoding.md R57, R58): its 49 data bits are the frame, its last bit makes the
number of its ones even.
-/

namespace Sys2Proof.Machine

/-- The upper 49 bits of a codeword are its frame (R58). -/
theorem codeword_data (f : Frame) : (codeword f).extractLsb' 1 49 = f :=
  BitVec.extractLsb'_append_eq_left

/-- The parity bit makes the number of ones even (R58). -/
theorem popcount_codeword_even (f : Frame) : popcount (codeword f) % 2 = 0 := by
  have hones : popcount (codeword f) = popcount f % 2 + popcount f := by
    rw [popcount, onesFrom_succ, codeword_zero, onesFrom_codeword, parityOf, oddCount_toNat, ← popcount]
  omega

/-- Fields put side by side are a sum, the upper one scaled by the width of the lower. -/
theorem toNat_append_add {m n : Nat} (x : BitVec m) (y : BitVec n) :
    (x ++ y).toNat = x.toNat * 2 ^ n + y.toNat := by
  rw [BitVec.toNat_append, ← Nat.shiftLeft_add_eq_or_of_lt y.isLt, Nat.shiftLeft_eq]

/-- The announce marker and the tag are the codeword's top twelve bits (R57). -/
theorem frameOf_top (t : Byte) (h : BitVec 2) (c : BitVec 3) (p : Payload) :
    (frameOf t h c p).extractLsb' 37 12 = announce ++ t := by
  unfold frameOf
  rw [BitVec.extractLsb'_append_eq_of_le (by omega), BitVec.extractLsb'_append_eq_of_le (by omega),
    BitVec.extractLsb'_append_eq_of_le (by omega)]
  exact BitVec.extractLsb'_eq_self

theorem codeword_toNat (f : Frame) : (codeword f).toNat = f.toNat * 2 + popcount f % 2 := by
  rw [codeword, toNat_append_add, BitVec.toNat_ofBool, parityOf, oddCount_toNat, pow_one]

theorem frameOf_toNat (t : Byte) (h : BitVec 2) (c : BitVec 3) (p : Payload) :
    (frameOf t h c p).toNat =
      0xB * 2 ^ 45 + t.toNat * 2 ^ 37 + h.toNat * 2 ^ 35 + c.toNat * 2 ^ 32 + p.toNat := by
  simp only [frameOf, toNat_append_add, show announce.toNat = 0xB from rfl]
  omega

theorem announce_append (t : Byte) : announce ++ t = 0xB00 ||| t.zeroExtend 12 := by
  rw [BitVec.zeroExtend, BitVec.setWidth_eq_append (by omega), show (0xB00 : BitVec 12) = announce ++ 0#8 from rfl]
  exact (BitVec.or_append.trans (by rw [BitVec.or_zero, BitVec.zero_or])).symm

/-- Settles O26: the codeword is the frame and its parity bit, and the frame is its fields side by side. -/
theorem codewordLayout : Obligations.CodewordLayout := by
  intro t h c p
  rw [show 0b1011#4 ++ t ++ h ++ c ++ p = frameOf t h c p from rfl]
  refine ⟨codeword_data _, ?_, ?_, ?_, popcount_codeword_even _⟩
  · rw [sendCodeword, codeword_zero, parityOf, oddCount_toNat]
  · rw [sendCodeword, codeword_toNat, frameOf_toNat]
    omega
  · rw [sendCodeword, codeword, BitVec.extractLsb'_append_eq_of_le (by omega), frameOf_top, announce_append]

end Sys2Proof.Machine
end

section
/-!
PROOFS. The six sends (40_send_commands.md): a transmit build arms the serializer with the operands side by side as the
payload (R74-R81, R85, R86), and each payload encoding round-trips (R82).
-/

namespace Sys2Proof.Machine

/-! ### The accepting edge of a send -/

/-- Everything the accepting edge of a send writes in a transmit build (R74, R85, R86). -/
theorem whenReady_acceptSend_transmit {s : State} (hs : s.st = .idle) (hd : s.build.diag = false) (tag : Byte)
    (p : Payload) :
    whenReady s (acceptSend tag p s) =
      .next { s with frame := frameOf tag s.house s.channel p, rr := s.rep, done := false, st := .arm } := by
  rw [whenReady_idle hs, acceptSend_transmit hd, loadSend, effRepeat, hd]
  rfl

/-- The two's-complement pattern of an integer is its residue modulo `2^w` (00_scope.md R12). -/
theorem ofInt_eq_ofNat_emod (w : Nat) (v : Int) : BitVec.ofInt w v = BitVec.ofNat w (v % 2 ^ w).toNat := by
  have hnonneg : 0 ≤ v % 2 ^ w := Int.emod_nonneg v (by positivity)
  rw [← BitVec.ofInt_natCast, Int.toNat_of_nonneg hnonneg]
  apply BitVec.eq_of_toNat_eq
  rw [BitVec.toNat_ofInt, BitVec.toNat_ofInt, Nat.cast_pow, Nat.cast_ofNat, Int.emod_emod]

/-- Settles O15: every send is the one accepting edge, on the payload its operands make side by side. -/
theorem sendArmsTheTransmitter : Obligations.SendArmsTheTransmitter := by
  intro s hs hd armed
  have harmed : ∀ tag p, whenReady s (acceptSend tag p s) = .next (armed tag p) :=
    whenReady_acceptSend_transmit hs hd
  refine ⟨harmed 0, fun v _ _ => ?_, harmed 1, harmed 2, fun a b => ?_, fun a b => ?_, fun a b c d => ?_⟩
  · rw [ofInt_eq_ofNat_emod]
    exact harmed 1 _
  · rw [← packPair_append]
    exact harmed 3 _
  · rw [← packPair_append]
    exact harmed 4 _
  · rw [← packB05_append]
    exact harmed 5 _

/-! ### The payload encodings -/

theorem packPair_high (a b : Half) : (packPair a b).extractLsb' 16 16 = a :=
  (congrArg _ (packPair_append a b)).trans BitVec.extractLsb'_append_eq_left

theorem packPair_low (a b : Half) : (packPair a b).extractLsb' 0 16 = b :=
  (congrArg _ (packPair_append a b)).trans BitVec.extractLsb'_append_eq_right

/-- The two halves of a payload, packed, are the payload (R75). -/
theorem packPair_halves (p : Payload) : packPair (p.extractLsb' 16 16) (p.extractLsb' 0 16) = p := by
  rw [packPair_append, BitVec.extractLsb'_append_extractLsb'_eq_extractLsb' (Nat.zero_add 16).symm]
  exact BitVec.extractLsb'_eq_self

theorem unpackB01_packB01 {v : Int} (hlo : -2 ^ 31 ≤ v) (hhi : v < 2 ^ 31) : unpackB01 (packB01 (bits32 v)) = v :=
  BitVec.toInt_ofInt_eq_self (by omega) hlo hhi

theorem toInt_bits16 {v : Int} (hlo : -2 ^ 15 ≤ v) (hhi : v < 2 ^ 15) : (bits16 v).toInt = v :=
  BitVec.toInt_ofInt_eq_self (by omega) hlo hhi

theorem unpackB03_packB03 {v w : Int} (hv : -2 ^ 15 ≤ v) (hv' : v < 2 ^ 15) (hw : -2 ^ 15 ≤ w) (hw' : w < 2 ^ 15) :
    unpackB03 (packB03 (bits16 v) (bits16 w)) = (v, w) := by
  rw [unpackB03, packB03, packPair_high, packPair_low, toInt_bits16 hv hv', toInt_bits16 hw hw']

theorem packB03_unpackB03 (p : Payload) : packB03 (bits16 (unpackB03 p).1) (bits16 (unpackB03 p).2) = p := by
  simp only [unpackB03, bits16, BitVec.ofInt_toInt]
  exact packPair_halves p

theorem unpackB04_packB04 (a b : Half) : unpackB04 (packB04 a b) = (a.toNat, b.toNat) := by
  rw [unpackB04, packB04, packPair_high, packPair_low]

theorem packB04_unpackB04 (p : Payload) :
    packB04 (BitVec.ofNat 16 (unpackB04 p).1) (BitVec.ofNat 16 (unpackB04 p).2) = p := by
  simp only [unpackB04, BitVec.ofNat_toNat, BitVec.setWidth_eq]
  exact packPair_halves p

/-- Four packed bytes are the data bytes of the word that carries them, most significant first (R81; 30_encoding.md
R62). -/
theorem unpackB05_packB05 (a b c d : Byte) : unpackB05 (packB05 a b c d) = (a, b, c, d) := by
  have hbyte : ∀ {k}, k < 4 → (a ++ b ++ c ++ d).extractLsb' (8 * k) 8 = dataByte (cmdOf 5 (a ++ b ++ c ++ d)) k :=
    fun hk => (dataByte_cmdOf 5 _ hk).symm
  have ha := (hbyte (k := 3) (by omega)).trans (dataByte_three_cmdOf 5 a b c d)
  have hb := (hbyte (k := 2) (by omega)).trans (dataByte_two_cmdOf 5 a b c d)
  have hc := (hbyte (k := 1) (by omega)).trans (dataByte_one_cmdOf 5 (a ++ b) c d)
  have hd := (hbyte (k := 0) (by omega)).trans (dataByte_zero_cmdOf 5 (a ++ b ++ c) d)
  rw [packB05_append, unpackB05, ha, hb, hc, hd]

/-- The four bytes of a payload, packed, are the payload (R75). -/
theorem packB05_unpackB05 (p : Payload) :
    packB05 (unpackB05 p).1 (unpackB05 p).2.1 (unpackB05 p).2.2.1 (unpackB05 p).2.2.2 = p := by
  rw [packB05_append]
  simp only [unpackB05, BitVec.extractLsb'_append_extractLsb'_eq_extractLsb']
  exact BitVec.extractLsb'_eq_self

/-- Settles O17: a tag at a time, each direction by its own lemma. -/
theorem payloadsRoundTrip : Obligations.PayloadsRoundTrip :=
  ⟨fun _ => rfl, fun _ => rfl,
    fun _ => unpackB01_packB01, fun _ => BitVec.ofInt_toInt,
    fun _ => rfl, fun p => (BitVec.ofNat_toNat 32 p).trans (BitVec.setWidth_eq p),
    fun _ _ => unpackB03_packB03, packB03_unpackB03,
    unpackB04_packB04, packB04_unpackB04,
    unpackB05_packB05, packB05_unpackB05⟩

end Sys2Proof.Machine
end

section
/-!
PROOFS. The codeword on the line (41_codeword_framer.md): the bits of a repetition and their parity (R90), the symbols of
a burst (R87-R89), the first bit of a repetition, which reads nothing of the one before (R91, R95), and the accumulator in
its closed form (R96).
-/

namespace Sys2Proof.Machine

/-! ### The bits of a repetition -/

@[simp] theorem length_bitsDown {w : Nat} (v : BitVec w) (n : Nat) : (bitsDown v n).length = n := by
  induction n with
  | zero => rfl
  | succ n ih => rw [bitsDown, List.length_cons, ih]

/-- The top bit of a range counted last, where `onesFrom` counts the lowest first. -/
theorem onesFrom_succ_last {w : Nat} (v : BitVec w) (lo n : Nat) :
    onesFrom v lo (n + 1) = onesFrom v lo n + (v.getLsbD (lo + n)).toNat := by
  induction n generalizing lo with
  | zero => exact Nat.add_comm _ _
  | succ n ih => rw [onesFrom_succ, ih, onesFrom_succ, Nat.add_right_comm lo 1 n, Nat.add_assoc, Nat.add_assoc]

theorem count_true_cons (b : Bool) (l : List Bool) : (b :: l).count true = b.toNat + l.count true := by
  cases b <;> simp [Nat.add_comm]

theorem count_true_bitsDown {w : Nat} (v : BitVec w) (n : Nat) : (bitsDown v n).count true = onesFrom v 0 n := by
  induction n with
  | zero => rfl
  | succ n ih => rw [bitsDown, count_true_cons, ih, onesFrom_succ_last, Nat.zero_add, Nat.add_comm]

theorem bitsDown_codeword (f : Frame) (n : Nat) : bitsDown (codeword f) (n + 1) = bitsDown f n ++ [parityOf f] := by
  induction n with
  | zero => exact congrArg ([·]) (codeword_zero f)
  | succ n ih => rw [bitsDown, ih, codeword_succ, bitsDown, List.cons_append]

/-- On the line a codeword is its 49 data bits and then their parity (30_encoding.md R58, R59). -/
theorem lineBits_codeword (f : Frame) : lineBits (codeword f) = bitsDown f 49 ++ [parityOf f] :=
  bitsDown_codeword f 49

/-- Settles O27: the line shows the data bits, whose ones are `popcount(F49)`, and then their parity. -/
theorem repetitionParityLaw : Obligations.RepetitionParityLaw := by
  intro f
  have hones : (bitsDown f 49).count true = popcount f := count_true_bitsDown f 49
  have hlast : (bitsDown f 49 ++ [parityOf f]).getLast?.map Bool.toNat = some (popcount f % 2) := by
    rw [List.getLast?_concat, Option.map_some, parityOf, oddCount_toNat]
  rw [lineBits_codeword, codeword_data, List.take_left' (length_bitsDown f 49), hones]
  refine ⟨by simp, hlast, hlast, ?_⟩
  rw [List.count_append, count_true_cons, hones, parityOf, oddCount_toNat, List.count_nil]
  omega

/-! ### The symbols of a burst -/

@[simp] theorem count_sync_bits (l : List Bool) : (l.map bitSymbol).count .sync = 0 := by
  refine List.count_eq_zero.mpr fun h => ?_
  obtain ⟨b, -, hb⟩ := List.mem_map.mp h
  cases b <;> cases hb

/-- Every bit is one of the two bit symbols. -/
theorem count_bits (l : List Bool) : (l.map bitSymbol).count .bit0 + (l.map bitSymbol).count .bit1 = l.length := by
  induction l with
  | nil => rfl
  | cons b l ih => cases b <;> simp [bitSymbol] <;> omega

theorem length_repetition (cw : Codeword) : (repetition cw).length = 51 := by
  simp [repetition, lineBits]

theorem count_sync_repetition (cw : Codeword) : (repetition cw).count .sync = 1 := by
  simp [repetition]

theorem count_bits_repetition (cw : Codeword) : (repetition cw).count .bit0 + (repetition cw).count .bit1 = 50 := by
  simpa [repetition, lineBits] using count_bits (lineBits cw)

/-- One repetition more is the same repetition once more (R87). -/
theorem burstSymbols_succ (cw : Codeword) (r : Nat) :
    burstSymbols cw (r + 1) = burstSymbols cw r ++ repetition cw := by
  simp [burstSymbols, List.replicate_succ']

/-- A burst ends with a sync pulse: the first one where there is no repetition (R88), else the last
repetition's (R89). -/
theorem getLast?_burstSymbols (cw : Codeword) (r : Nat) : (burstSymbols cw r).getLast? = some .sync := by
  cases r with
  | zero => rfl
  | succ r => rw [burstSymbols_succ, repetition, ← List.append_assoc, List.getLast?_concat]

theorem length_burstSymbols (cw : Codeword) (r : Nat) : (burstSymbols cw r).length = 1 + 51 * r := by
  induction r with
  | zero => rfl
  | succ r ih => rw [burstSymbols_succ, List.length_append, ih, length_repetition]; omega

theorem count_sync_burstSymbols (cw : Codeword) (r : Nat) : (burstSymbols cw r).count .sync = r + 1 := by
  induction r with
  | zero => rfl
  | succ r ih => rw [burstSymbols_succ, List.count_append, ih, count_sync_repetition]

theorem count_bits_burstSymbols (cw : Codeword) (r : Nat) :
    (burstSymbols cw r).count .bit0 + (burstSymbols cw r).count .bit1 = 50 * r := by
  induction r with
  | zero => rfl
  | succ r ih =>
    have hrep := count_bits_repetition cw
    rw [burstSymbols_succ, List.count_append, List.count_append]
    omega

/-- Settles O29: each count by induction on the repetitions. -/
theorem burstSymbolCounts : Obligations.BurstSymbolCounts := fun cw r =>
  ⟨length_burstSymbols cw r, count_sync_burstSymbols cw r, count_bits_burstSymbols cw r, rfl,
    getLast?_burstSymbols cw r, rfl, burstSymbols_succ cw r⟩

/-! ### The first bit of a repetition -/

/-- The tick that ends a sync pulse with repetitions left starts bit 49 of the next one (R95). -/
theorem tickEdge_starts_repetition {s : State} (hs : s.st = .syncL) (hc : s.cnt = 0) (hr : s.rr ≠ 0) :
    tickEdge s = startBit 49 { s with rr := s.rr - 1 } := by
  simp only [tickEdge, hs, countOr, if_pos hc, endSync, if_neg hr]

theorem step_starts_repetition {s : State} (h : edgeOpen s) (hs : s.st = .syncL) (ht : (inputsAt s).usTick = true)
    (hc : s.cnt = 0) (hr : s.rr ≠ 0) :
    step s = .next (startBit 49 { clearDone (advance s) with rr := s.rr - 1 }) := by
  have ⟨_, hlegal, _⟩ := h
  have hd : s.build.diag = false := by simpa [ctlLegal] using legal_ctl hlegal hs
  rw [step_transmit h hd (by simp [hs]), transmitEdge, if_pos ht,
    tickEdge_starts_repetition (s := clearDone (advance s)) hs hc hr]
  rfl

/-- Bit 49 is a data bit, and the accumulator starts over with it: `start_bit(49)` reads none of the registers of the bit
before (R91, R94). -/
theorem startBit_top_congr (s : State) (par cur : Bool) (bi : BitVec 6) :
    startBit 49 { s with par := par, cur := cur, bi := bi } = startBit 49 s := rfl

/-- Settles O37: the edge is `start_bit(49)` from either state. -/
theorem newRepetitionForgetsTheOld : Obligations.NewRepetitionForgetsTheOld := by
  intro s par cur bi h hbi hs ht hc hr
  have ⟨hb, hlegal, hrst⟩ := h
  obtain ⟨hctl, -, heol⟩ := (legal_iff s).mp hlegal
  have h' : edgeOpen { s with par := par, cur := cur, bi := bi } :=
    ⟨hb, (legal_iff _).mpr ⟨hctl, hbi, heol⟩, hrst⟩
  rw [step_starts_repetition h hs ht hc hr, step_starts_repetition h' hs ht hc hr]
  exact congrArg _ (startBit_top_congr { clearDone (advance s) with rr := s.rr - 1 } par cur bi)

/-! ### The accumulator in its closed form -/

theorem onesFrom_extractLsb' {w : Nat} (v : BitVec w) (i m lo n : Nat) (h : lo + n ≤ m) :
    onesFrom (v.extractLsb' i m) lo n = onesFrom v (i + lo) n := by
  induction n generalizing lo with
  | zero => rfl
  | succ n ih =>
    rw [onesFrom_succ, onesFrom_succ, ih (lo + 1) (by omega), BitVec.getLsbD_extractLsb',
      decide_eq_true (show lo < m by omega), Bool.true_and, Nat.add_assoc]

/-- The parity of bits 49 to `i` is `popcount(CW[49:i]) mod 2`. -/
theorem parityDownTo_toNat (cw : Codeword) (i : Nat) :
    (parityDownTo cw i).toNat = popcount (cw.extractLsb' i (50 - i)) % 2 := by
  rw [parityDownTo, oddCount_toNat, popcount, onesFrom_extractLsb' _ _ _ _ _ (Nat.zero_add _).le, Nat.add_zero]

/-- Settles O49: the invariant's clause on the bit on the line, in its closed form. -/
theorem accumulatorAgreesWithParity : Obligations.AccumulatorAgreesWithParity := by
  intro s h hs
  obtain ⟨hcur, hpar⟩ := h.onLine hs
  refine ⟨fun hdata => ?_, fun hlast => ?_⟩
  · rw [hpar, Nat.max_eq_left hdata, parityDownTo_toNat]
  · rw [hlast] at hcur hpar
    have hagree : (codeword s.frame).getLsbD 0 = parityDownTo (codeword s.frame) 1 :=
      (codeword_zero _).trans (parityDownTo_one _).symm
    exact ⟨(hcur.trans hagree).trans hpar.symm, hpar ▸ parityDownTo_toNat _ 1, hcur⟩

end Sys2Proof.Machine
end

section
/-!
PROOFS. The waveform of a burst (42_pulse_serializer.md R98-R103): the segments of the symbols, how long they last, and
that they alternate HIGH, LOW.
-/

namespace Sys2Proof.Machine

/-! ### The waves of the symbols -/

/-- A bit is HIGH and then LOW for the two durations of its value (R99, R100). -/
theorem wave_bitSymbol (b : Build) (v : Bool) :
    wave b (bitSymbol v) = [⟨true, bitHighUs b v⟩, ⟨false, bitLowUs b v⟩] := by
  cases v <;> rfl

/-- Every symbol is a HIGH segment and then a LOW one. -/
theorem wave_eq_high_low (b : Build) (y : Symbol) : ∃ d e, wave b y = [⟨true, d⟩, ⟨false, e⟩] := by
  cases y <;> exact ⟨_, _, rfl⟩

theorem durationUs_sync (b : Build) : durationUs (wave b .sync) = 32 * b.shortUs := by
  simp only [wave, durationUs, shortUs, syncUs, List.map_cons, List.map_nil, List.sum_cons, List.sum_nil]
  omega

theorem durationUs_bit (b : Build) (v : Bool) : durationUs (wave b (bitSymbol v)) = 4 * b.shortUs := by
  cases v <;>
    simp only [bitSymbol, wave, durationUs, shortUs, longUs, List.map_cons, List.map_nil, List.sum_cons,
      List.sum_nil, if_true, Bool.false_eq_true, if_false] <;>
    omega

/-- Settles O28: the waves are as the rules write them, and their durations are sums of two. -/
theorem symbolWaveforms : Obligations.SymbolWaveforms :=
  ⟨fun b => ⟨rfl, rfl, rfl, durationUs_sync b, durationUs_bit b⟩, rfl, rfl, rfl⟩

/-! ### The segments of a symbol list -/

theorem wavesOf_cons (b : Build) (y : Symbol) (ys : List Symbol) : wavesOf b (y :: ys) = wave b y ++ wavesOf b ys :=
  List.flatMap_cons

theorem wavesOf_append (b : Build) (xs ys : List Symbol) : wavesOf b (xs ++ ys) = wavesOf b xs ++ wavesOf b ys :=
  List.flatMap_append

theorem length_wavesOf (b : Build) (ys : List Symbol) : (wavesOf b ys).length = 2 * ys.length := by
  induction ys with
  | nil => rfl
  | cons y ys ih =>
    obtain ⟨d, e, hw⟩ := wave_eq_high_low b y
    rw [wavesOf_cons, List.length_append, hw, ih, List.length_cons, List.length_cons, List.length_cons, List.length_nil]
    omega

/-- The segments of symbols are HIGH at the even places and LOW at the odd ones (R102). -/
theorem level_wavesOf {b : Build} {ys : List Symbol} {k : Nat} {g : Segment} (h : (wavesOf b ys)[k]? = some g) :
    g.level = (k % 2 == 0) := by
  induction ys generalizing k with
  | nil => cases h
  | cons y ys ih =>
    obtain ⟨d, e, hw⟩ := wave_eq_high_low b y
    rw [wavesOf_cons, hw] at h
    match k with
    | 0 => cases h; rfl
    | 1 => cases h; rfl
    | k + 2 =>
      rw [Nat.add_mod_right]
      exact ih h

/-- Settles O31: the level of a segment is its place's, and the number of segments is even, so the last place is odd. -/
theorem waveformAlternates : Obligations.WaveformAlternates := by
  intro b tag p h c r k g hg
  have hlevel := level_wavesOf hg
  refine ⟨hlevel, fun hnone => ?_⟩
  have hlen := length_wavesOf b (symbols tag p h c r)
  have hin : k < (wavesOf b (symbols tag p h c r)).length := (List.getElem?_eq_some_iff.mp hg).1
  have hout : (wavesOf b (symbols tag p h c r)).length ≤ k + 1 := List.getElem?_eq_none_iff.mp hnone
  have hodd : k % 2 = 1 := by omega
  rw [hlevel, hodd]
  rfl

/-- A symbol list lasts 32 SHORT for each sync pulse and 4 SHORT for each bit (R101). -/
theorem durationUs_wavesOf (b : Build) (ys : List Symbol) :
    durationUs (wavesOf b ys) =
      ys.count .sync * (32 * b.shortUs) + (ys.count .bit0 + ys.count .bit1) * (4 * b.shortUs) := by
  induction ys with
  | nil => simp [wavesOf, durationUs]
  | cons y ys ih =>
    rw [wavesOf_cons, durationUs_append, ih]
    cases y with
    | sync => rw [durationUs_sync]; simp; ring
    | bit0 => rw [show wave b .bit0 = wave b (bitSymbol false) from rfl, durationUs_bit]; simp; ring
    | bit1 => rw [show wave b .bit1 = wave b (bitSymbol true) from rfl, durationUs_bit]; simp; ring

/-- `T(r)` in units of SHORT (R103). -/
theorem burstUs_eq (b : Build) (r : Nat) : burstUs b r = 32 * b.shortUs + r * (232 * b.shortUs) := by
  simp only [burstUs, shortUs, longUs, syncUs]
  ring

/-- A burst lasts `T(r)`: its `r + 1` sync pulses and `50 r` bits (R103). -/
theorem durationUs_burst (b : Build) (cw : Codeword) (r : Nat) :
    durationUs (wavesOf b (burstSymbols cw r)) = burstUs b r := by
  rw [durationUs_wavesOf, count_sync_burstSymbols, count_bits_burstSymbols, burstUs_eq]
  ring

/-- Settles O30: `T(r)` is `burstUs`, and a burst has two segments for each of its symbols. -/
theorem burstDuration : Obligations.BurstDuration := by
  intro b tag p h c r
  have hT : ∀ b, durationUs (waveform b tag p h c r) = burstUs b r := fun b => durationUs_burst b _ r
  have hlen : (waveform b tag p h c r).length = 2 + 102 * r := by
    rw [waveform, length_wavesOf, symbols, length_burstSymbols]
    omega
  have hstd : burstUs Build.standard r = 9600 + 69600 * r := by
    rw [burstUs_eq, show Build.standard.shortUs = 300 from rfl]
    omega
  exact ⟨hT b, (hT b).trans (burstUs_eq b r), (hT _).trans hstd, hlen, count_sync_burstSymbols _ r⟩

end Sys2Proof.Machine
end

section
/-!
PROOFS. The edges of the transmit build's state machine (42_pulse_serializer.md R104-R111): waiting for a command, a tick
edge in each control state of a send, and the one edge after which `DONE` is 1.
-/

namespace Sys2Proof.Machine

/-! ### Waiting in IDLE -/

/-- Where a word leaves a ready transmit build: in `ARM` if it is a send, else in `IDLE` (R105). -/
theorem exec_decode_st_transmit (w : CmdWord) {s t : State} (hs : s.st = .idle) (hd : s.build.diag = false)
    (he : exec (decode w) s = .next t) : t.st = if (opcodeField w).toNat ≤ 5 then .arm else .idle := by
  by_cases hw : (opcodeField w).toNat ≤ 5
  · obtain ⟨p, hp⟩ := exec_decode_send hw hs
    cases hp.symm.trans he
    rw [if_pos hw, acceptSend_transmit hd]
  · obtain ⟨u, hu, hust, -⟩ := exec_not_send ((isSend_decode w).trans (decide_eq_false hw)) hs
    cases hu.symm.trans he
    rw [if_neg hw, hust]

/-- Settles O14: with a command presented the step is the command, which leaves `OUT`; with none the block holds. -/
theorem idleWaitsForACommand : Obligations.IdleWaitsForACommand := by
  intro s h hinv hs hd
  have hout : s.out = false := hinv.outLow (by simp [hs]) (by simp [hs])
  refine ⟨(cmdReady_iff s).mpr hs, hout, fun hv => ?_, fun hv => step_idle_hold h hs hv⟩
  obtain ⟨t, he, ht⟩ := exec_idle (decode (inputsAt s).cmdWord) (s := advance s) hs
  exact ⟨t, (step_idle_accept h hs hv).trans he, he, ht.out_eq.trans hout,
    exec_decode_st_transmit _ (s := advance s) hs hd he⟩

/-! ### A tick edge of a send -/

/-- The control states of a send are those of a transmit build (10_state.md R32). -/
theorem transmit_of_legal {s : State} (hl : s.legal = true) (hs : s.st ∈ [Ctl.arm, .syncH, .syncL, .bitH, .bitL]) :
    s.build.diag = false ∧ s.st ≠ .idle := by
  have hctl : ∀ (d : Bool), ∀ c ∈ [Ctl.arm, .syncH, .syncL, .bitH, .bitL], ctlLegal d c = true →
      d = false ∧ c ≠ .idle := by decide
  exact hctl _ _ hs (legal_ctl hl rfl)

/-- At a tick edge of a send the state machine runs, `DONE` being 0 unless it sets it (R111). -/
theorem step_tick {s : State} (h : edgeOpen s) (hs : s.st ∈ [Ctl.arm, .syncH, .syncL, .bitH, .bitL])
    (ht : (inputsAt s).usTick = true) : step s = .next (tickEdge (clearDone (advance s))) := by
  have ⟨_, hl, _⟩ := h
  obtain ⟨hd, hbusy⟩ := transmit_of_legal hl hs
  rw [step_transmit h hd hbusy, transmitEdge, if_pos ht]

theorem tickEdge_arm {s : State} (hs : s.st = .arm) : tickEdge s = startSync s := by
  simp only [tickEdge, hs]

theorem tickEdge_syncH {s : State} (hs : s.st = .syncH) :
    tickEdge s = countOr s (startSegment .syncL false (syncUs s.build) s) := by
  simp only [tickEdge, hs]

theorem tickEdge_syncL {s : State} (hs : s.st = .syncL) : tickEdge s = countOr s (endSync s) := by
  simp only [tickEdge, hs]

theorem tickEdge_bitH {s : State} (hs : s.st = .bitH) :
    tickEdge s = countOr s (startSegment .bitL false (bitLowUs s.build s.cur) s) := by
  simp only [tickEdge, hs]

theorem tickEdge_bitL {s : State} (hs : s.st = .bitL) : tickEdge s = countOr s (endBit s) := by
  simp only [tickEdge, hs]

/-- The counter of a segment as the spec writes it: a guarded decrement of a number (R104; 10_state.md R42). -/
theorem countOr_eq (s s' : State) :
    countOr s s' = if 0 < s.cnt.toNat then { s with cnt := BitVec.ofNat 14 (s.cnt.toNat - 1) } else s' := by
  unfold countOr
  by_cases hc : s.cnt = 0
  · rw [if_pos hc, if_neg (by simp [hc])]
  · have hpos : 0 < s.cnt.toNat := Nat.pos_of_ne_zero fun h0 => hc (BitVec.eq_of_toNat_eq h0)
    rw [if_neg hc, if_pos hpos, ofNat_pred _ hc]

/-- Settles O32: a tick in `ARM` starts the sync pulse; the accepting edge is the command, which is no tick. -/
theorem armWaitsForTheFirstTick : Obligations.ArmWaitsForTheFirstTick := by
  constructor
  · intro s h hs
    cases ht : (inputsAt s).usTick with
    | true =>
      rw [step_tick h (by simp [hs]) ht, tickEdge_arm (s := clearDone (advance s)) hs]
      rfl
    | false =>
      have ⟨_, hl, _⟩ := h
      obtain ⟨hd, hbusy⟩ := transmit_of_legal hl (by simp [hs])
      rw [step_transmit h hd hbusy, transmitEdge, if_neg (by simp [ht])]
      rfl
  · intro s h hs hd hv hw
    obtain ⟨p, hp⟩ := exec_decode_send (s := advance s) hw hs
    refine ⟨_, (step_idle_accept h hs hv).trans hp, ?_, acceptSend_out .., acceptSend_cnt ..⟩
    rw [acceptSend_transmit (s := advance s) hd]

/-- Settles O33: the counter, and after it the LOW part of the sync pulse. -/
theorem syncHighPart : Obligations.SyncHighPart := by
  intro s h hs ht
  rw [step_tick h (by simp [hs]) ht, tickEdge_syncH (s := clearDone (advance s)) hs, countOr_eq]
  rfl

/-- Settles O35: the counter, and after it the LOW part of the bit. -/
theorem bitHighPart : Obligations.BitHighPart := by
  intro s h hs ht
  rw [step_tick h (by simp [hs]) ht, tickEdge_bitH (s := clearDone (advance s)) hs, countOr_eq]
  rfl

/-- Bit 49 starts with the accumulator at 0, which takes the bit (41_codeword_framer.md R91, R94). -/
theorem startBit_top (s : State) :
    startBit 49 s =
      { s with
        par := s.frame.getLsbD 48, bi := 49, cur := s.frame.getLsbD 48, st := .bitH, out := true
        cnt := loadCnt (bitHighUs s.build (s.frame.getLsbD 48)) } := by
  have hpar : parNext s.frame s.par 49 = s.frame.getLsbD 48 := Bool.false_xor _
  rw [startBit, hpar]
  rfl

/-- The parity bit is the accumulator and leaves it alone (R93, R94). -/
theorem startBit_parity (s : State) :
    startBit 0 s =
      { s with bi := 0, cur := s.par, st := .bitH, out := true, cnt := loadCnt (bitHighUs s.build s.par) } :=
  rfl

/-- A data bit below the first one toggles the accumulator if it is a 1 (R92, R94). -/
theorem startBit_data (s : State) {i : BitVec 6} (h0 : i ≠ 0) (h49 : i ≠ 49) :
    startBit i s =
      { s with
        par := s.par ^^ s.frame.getLsbD (i.toNat - 1), bi := i, cur := s.frame.getLsbD (i.toNat - 1)
        st := .bitH, out := true
        cnt := loadCnt (bitHighUs s.build (s.frame.getLsbD (i.toNat - 1))) } := by
  simp only [startBit, startSegment, bitValue, parNext, parBase, h0, h49, if_false]

/-- `end_sync()`, the registers written out (R95). -/
theorem endSync_eq (s : State) :
    endSync s =
      if s.rr.toNat = 0 then { s with st := .idle, done := true }
      else startBit 49 { s with rr := BitVec.ofNat 8 (s.rr.toNat - 1) } := by
  unfold endSync
  by_cases hr : s.rr = 0
  · rw [if_pos hr, if_pos (by simp [hr])]
  · have hpos : s.rr.toNat ≠ 0 := fun h0 => hr (BitVec.eq_of_toNat_eq h0)
    rw [if_neg hr, if_neg hpos, ofNat_pred _ hr]

/-- Settles O34: the counter, and after it the end of the burst or bit 49 of the next repetition. -/
theorem syncLowPart : Obligations.SyncLowPart := by
  intro s h hs ht
  rw [step_tick h (by simp [hs]) ht, tickEdge_syncL (s := clearDone (advance s)) hs, countOr_eq, endSync_eq, startBit_top]
  rfl

/-- `end_bit()`, the registers written out (R97, with R92 to R94). -/
theorem endBit_eq {s : State} (hbi : s.bi.toNat ≤ 49) :
    endBit s =
      if s.bi.toNat = 0 then startSync s
      else if s.bi.toNat = 1 then
        { s with bi := 0, cur := s.par, st := .bitH, out := true, cnt := loadCnt (bitHighUs s.build s.par) }
      else
        { s with
          par := s.par ^^ s.frame.getLsbD (s.bi.toNat - 2), bi := BitVec.ofNat 6 (s.bi.toNat - 1)
          cur := s.frame.getLsbD (s.bi.toNat - 2), st := .bitH, out := true
          cnt := loadCnt (bitHighUs s.build (s.frame.getLsbD (s.bi.toNat - 2))) } := by
  unfold endBit
  by_cases h0 : s.bi = 0
  · rw [if_pos h0, if_pos ((bi_zero_iff _).mp h0)]
  · have hpos : s.bi.toNat ≠ 0 := mt (bi_zero_iff _).mpr h0
    have hpred : (s.bi - 1).toNat = s.bi.toNat - 1 := toNat_pred _ h0
    rw [if_neg h0, if_neg hpos]
    by_cases h1 : s.bi.toNat = 1
    · rw [if_pos h1, (bi_zero_iff (s.bi - 1)).mpr (by omega), startBit_parity]
    · have hne0 : s.bi - 1 ≠ 0 := fun h => by have := (bi_zero_iff _).mp h; omega
      have hne49 : s.bi - 1 ≠ 49 := fun h => by have := (bi_top_iff _).mp h; omega
      rw [if_neg h1, startBit_data s hne0 hne49, hpred, Nat.sub_sub, ofNat_pred _ h0]

/-- Settles O36: the counter, and after it the trailing sync pulse, the parity bit or the next data bit. -/
theorem bitLowPart : Obligations.BitLowPart := by
  intro s h hs ht
  have ⟨_, hl, _⟩ := h
  obtain ⟨-, hbi, -⟩ := (legal_iff s).mp hl
  rw [step_tick h (by simp [hs]) ht, tickEdge_bitL (s := clearDone (advance s)) hs, countOr_eq,
    endBit_eq (s := clearDone (advance s)) hbi]
  rfl

/-! ### The end of a send -/

/-- The edges at which a send ends, `p` being the inputs: the last tick of the last sync pulse, in a diagnostic build the
transfer of the last byte of the line break (R111; 43_diagnostic_mode.md R122). -/
def SendEnds (p : Inputs) (s : State) : Prop :=
  (s.build.diag = false ∧ s.st = .syncL ∧ p.usTick = true ∧ s.cnt = 0 ∧ s.rr = 0) ∨
    (s.build.diag = true ∧ s.st = .dEol ∧ p.diagReady = true ∧ s.eoli + 1 = s.build.diagEol.length)

/-- The tick that ends the last sync pulse ends the send (R95, R111). -/
theorem tickEdge_ends_send {s : State} (hs : s.st = .syncL) (hc : s.cnt = 0) (hr : s.rr = 0) :
    tickEdge s = { s with st := .idle, done := true } := by
  rw [tickEdge_syncL hs, countOr, if_pos hc, endSync, if_pos hr]

theorem countOr_done (s s' : State) : (countOr s s').done = if s.cnt = 0 then s'.done else s.done := by
  unfold countOr
  split <;> rfl

theorem endSync_done (s : State) : (endSync s).done = if s.rr = 0 then true else s.done := by
  unfold endSync
  split <;> rfl

@[simp] theorem endBit_done (s : State) : (endBit s).done = s.done := by
  unfold endBit
  split <;> rfl

/-- A tick raises `DONE` exactly where it ends the last sync pulse (R111). -/
theorem tickEdge_done_iff {s : State} (hd : s.done = false) :
    (tickEdge s).done = true ↔ s.st = .syncL ∧ s.cnt = 0 ∧ s.rr = 0 := by
  cases hs : s.st with
  | idle | dBit | dEol => simp [tickEdge, hs, hd]
  | arm => simp [tickEdge_arm hs, hd]
  | syncH => simp [tickEdge_syncH hs, countOr_done, hd]
  | syncL => simp [tickEdge_syncL hs, countOr_done, endSync_done, hd]
  | bitH => simp [tickEdge_bitH hs, countOr_done, hd]
  | bitL => simp [tickEdge_bitL hs, countOr_done, hd]

/-- The transfer of the last byte of the line break ends the send (43_diagnostic_mode.md R122). -/
theorem transferEdge_ends_send {s : State} (hs : s.st = .dEol) (he : s.eoli + 1 = s.build.diagEol.length) :
    transferEdge s = { s with st := .idle, done := true } := by
  simp only [transferEdge, hs, eolTransferred, if_pos (show s.eoli = s.build.diagEol.length - 1 by omega)]

@[simp] theorem bitTransferred_done (s : State) : (bitTransferred s).done = s.done := by
  unfold bitTransferred
  split <;> rfl

theorem eolTransferred_done (s : State) :
    (eolTransferred s).done = if s.eoli = s.build.diagEol.length - 1 then true else s.done := by
  unfold eolTransferred
  split <;> rfl

/-- A transfer raises `DONE` exactly where it takes the last byte of the line break (R122). -/
theorem transferEdge_done_iff {s : State} (hd : s.done = false) (he : s.eoli < s.build.diagEol.length) :
    (transferEdge s).done = true ↔ s.st = .dEol ∧ s.eoli + 1 = s.build.diagEol.length := by
  have hlast : s.eoli = s.build.diagEol.length - 1 ↔ s.eoli + 1 = s.build.diagEol.length := by omega
  cases hs : s.st with
  | idle | arm | syncH | syncL | bitH | bitL => simp [transferEdge, hs, hd]
  | dBit => simp [transferEdge, hs, hd]
  | dEol => simp [transferEdge, hs, eolTransferred_done, hlast, hd]

/-- The edges of the two state machines after which `DONE` is 1. -/
theorem runEdge_done_iff (p : Inputs) {s : State} (he : s.eoli < s.build.diagEol.length) :
    (runEdge p s).done = true ↔ SendEnds p s := by
  cases hd : s.build.diag with
  | false =>
    rw [runEdge_transmit hd, transmitEdge]
    cases ht : p.usTick with
    | false => simp [SendEnds, hd, ht]
    | true => simpa [SendEnds, hd, ht] using tickEdge_done_iff (clearDone_done s)
  | true =>
    rw [runEdge_diag hd, diagEdge]
    cases ht : p.diagReady with
    | false => simp [SendEnds, hd, ht]
    | true => simpa [SendEnds, hd, ht] using transferEdge_done_iff (clearDone_done s) he

/-- The edge that ends a send leaves the block in `IDLE` (R111). -/
theorem SendEnds.runEdge_st {p : Inputs} {s : State} (h : SendEnds p s) : (runEdge p s).st = .idle := by
  obtain ⟨hd, hs, ht, hc, hr⟩ | ⟨hd, hs, ht, he⟩ := h
  · rw [runEdge_transmit hd, transmitEdge, if_pos ht, tickEdge_ends_send (s := clearDone s) hs hc hr]
  · rw [runEdge_diag hd, diagEdge, if_pos ht, transferEdge_ends_send (s := clearDone s) hs he]

/-- No send ends in `IDLE`. -/
theorem not_sendEnds_idle {p : Inputs} {s : State} (hs : s.st = .idle) : ¬ SendEnds p s := by
  simp [SendEnds, hs]

/-- Every command leaves `DONE` at 0 (40_send_commands.md R74; 44_config_commands.md R127). -/
theorem Taken.done_eq {s t : State} {i : Instr} (h : Taken s i t) : t.done = false := by
  cases h with
  | send tag p _ => exact acceptSend_done tag p s
  | setLine | setAddress | setRepeat | reserved => rfl

/-- After a step `DONE` is 1 exactly if the step was an edge at which a send ends (R111). -/
theorem step_done_iff {s t : State} (h : step s = .next t) :
    t.done = true ↔ (inputsAt s).rst = false ∧ SendEnds (inputsAt s) s := by
  obtain ⟨-, ⟨hr, rfl⟩ | ⟨-, -, hs, -, he⟩ | ⟨hr, hl, -, rfl⟩⟩ := step_cases h
  · simp [hr]
  · simp [(exec_taken (s := advance s) hs he).done_eq, not_sendEnds_idle hs]
  · obtain ⟨-, -, heol⟩ := (legal_iff s).mp hl
    rw [runEdge_done_iff _ (s := advance s) heol, hr]
    exact (and_iff_right rfl).symm

/-- An edge that ends a send leads to `IDLE`. -/
theorem step_st_of_done {s t : State} (h : step s = .next t) (hdone : t.done = true) : t.st = .idle := by
  obtain ⟨hr, hend⟩ := (step_done_iff h).mp hdone
  obtain ⟨-, ⟨hr', -⟩ | ⟨-, -, hs, -, -⟩ | ⟨-, -, -, rfl⟩⟩ := step_cases h
  · exact absurd (hr.symm.trans hr') (by decide)
  · exact absurd hend (not_sendEnds_idle hs)
  · exact SendEnds.runEdge_st (s := advance s) hend

/-- Settles O40: where `DONE` is 1 the block is in `IDLE`, where no send ends, so the next edge leaves it 0. -/
theorem donePulsesAtTheEndOfASend : Obligations.DonePulsesAtTheEndOfASend := by
  intro s t h
  refine ⟨step_done_iff h, fun hdone => ?_⟩
  have hidle := step_st_of_done h hdone
  refine ⟨hidle, fun u hu => Bool.eq_false_iff.mpr fun hdone' => ?_⟩
  obtain ⟨-, hend⟩ := (step_done_iff hu).mp hdone'
  exact not_sendEnds_idle hidle hend

end Sys2Proof.Machine
end

section
/-!
PROOFS. The line of a whole send. A segment counts its tick edges, however many other edges stand between them
(42_pulse_serializer.md R104); a symbol is two segments, a repetition its bits from 49 down to 0 and a sync pulse, a burst
a sync pulse and its repetitions (41_codeword_framer.md R87). So the clocked block, from the first tick after the accepting
edge on, shows the waveform of the send and then `IDLE` (R113).
-/

namespace Sys2Proof.Machine

/-! ### Busy blocks -/

theorem BlockInv.busy {s : State} (h : BlockInv s) (hs : s.st ≠ .idle) (hd : s.build.diag = false) : Busy s :=
  (h.transmitting hs hd).toBusy

/-- A block stays busy where a segment starts. -/
theorem Busy.startSegment {s : State} (h : Busy s) {c : Ctl} (hc : c ∈ [Ctl.syncH, .syncL, .bitH, .bitL]) (l : Bool)
    (d : Nat) : Busy (startSegment c l d s) := by
  obtain ⟨-, hrest⟩ := (legal_iff s).mp h.legal
  have hctl : ∀ c ∈ [Ctl.syncH, .syncL, .bitH, .bitL], ctlLegal false c = true ∧ c ≠ .idle := by decide
  have ⟨hlegal, hidle⟩ := hctl c hc
  exact { h with legal := (legal_iff _).mpr ⟨by simpa [h.transmit] using hlegal, hrest⟩, busy := hidle }

theorem Busy.startSync {s : State} (h : Busy s) : Busy (startSync s) :=
  h.startSegment (by decide) _ _

theorem Busy.withBit {s : State} (h : Busy s) {i : BitVec 6} (hi : i.toNat ≤ 49) (par cur : Bool) :
    Busy { s with par := par, bi := i, cur := cur } := by
  obtain ⟨hctl, -, heol⟩ := (legal_iff s).mp h.legal
  exact { h with legal := (legal_iff _).mpr ⟨hctl, hi, heol⟩ }

theorem Busy.withCnt {s : State} (h : Busy s) (n : BitVec 14) : Busy { s with cnt := n } :=
  { h with legal := (legal_congr rfl rfl rfl rfl).trans h.legal }

theorem Busy.withRr {s : State} (h : Busy s) (n : BitVec 8) : Busy { s with rr := n } :=
  { h with legal := (legal_congr rfl rfl rfl rfl).trans h.legal }

theorem Busy.startBit {s : State} (h : Busy s) {i : BitVec 6} (hi : i.toNat ≤ 49) : Busy (startBit i s) :=
  (h.withBit hi (parNext s.frame s.par i) (bitValue s.frame s.par i)).startSegment (by decide) _ _

/-! ### A segment -/

theorem tickEdge_counts {s : State} (hseg : s.st ∈ [Ctl.syncH, .syncL, .bitH, .bitL]) (hc : s.cnt ≠ 0) :
    tickEdge s = { s with cnt := s.cnt - 1 } := by
  simp only [List.mem_cons, List.not_mem_nil, or_false] at hseg
  rcases hseg with hs | hs | hs | hs <;> simp only [tickEdge, hs, countOr, if_neg hc]

/-- Over edges with no more ticks than `CNT`, the counter falls by the ticks and nothing else changes (R104). -/
theorem runFor_counts {s : State} (h : Busy s) (hseg : s.st ∈ [Ctl.syncH, .syncL, .bitH, .bitL]) {ps : List Inputs}
    (hr : ∀ p ∈ ps, p.rst = false) (hn : tickCount ps ≤ s.cnt.toNat) (rest : List Inputs) (e : Nat) :
    runFor ps.length (withEnv s (ps ++ rest) e) =
      .next (withEnv { s with cnt := BitVec.ofNat 14 (s.cnt.toNat - tickCount ps) } rest (e + ps.length)) := by
  induction ps generalizing s e with
  | nil => simp [runFor, tickCount, withEnv]
  | cons p ps ih =>
    have hr' : ∀ q ∈ ps, q.rst = false := fun q hq => hr q (List.mem_cons_of_mem _ hq)
    have hst := step_withEnv_busy h (ps ++ rest) e (hr p List.mem_cons_self)
    rw [List.length_cons, List.cons_append, runFor_step hst, Nat.add_comm ps.length 1, ← Nat.add_assoc]
    by_cases ht : p.usTick = true
    · have htick : tickCount (p :: ps) = tickCount ps + 1 := by simp [tickCount, ht]
      have hc : s.cnt ≠ 0 := fun h0 => by simp [h0, htick] at hn
      have hpred : (s.cnt - 1).toNat = s.cnt.toNat - 1 := toNat_pred _ hc
      have hn' : tickCount ps ≤ (s.cnt - 1).toNat := by omega
      rw [if_pos ht, tickEdge_counts hseg hc, ih (h.withCnt (s.cnt - 1)) hseg hr' hn', htick, hpred, Nat.sub_sub,
        Nat.add_comm 1 (tickCount ps)]
    · have htick : tickCount (p :: ps) = tickCount ps := by simp [tickCount, ht]
      rw [if_neg ht, ih h hseg hr' (htick ▸ hn), htick]

/-- The state after a segment: the LOW part of the symbol after a HIGH one, and after a LOW one what the framer starts
next (R107-R110). -/
theorem tickEdge_last_st {s : State} (hseg : s.st ∈ [Ctl.syncH, .syncL, .bitH, .bitL]) (hc : s.cnt = 0) :
    (s.st = .syncH ∧ (tickEdge s).st = .syncL) ∨
      (s.st = .syncL ∧ ((tickEdge s).st = .bitH ∨ (tickEdge s).st = .idle)) ∨
      (s.st = .bitH ∧ (tickEdge s).st = .bitL) ∨
      (s.st = .bitL ∧ ((tickEdge s).st = .bitH ∨ (tickEdge s).st = .syncH)) := by
  simp only [List.mem_cons, List.not_mem_nil, or_false] at hseg
  obtain hs | hs | hs | hs := hseg
  · exact .inl ⟨hs, by rw [tickEdge_syncH hs, countOr, if_pos hc, startSegment_st]⟩
  · refine .inr (.inl ⟨hs, ?_⟩)
    rw [tickEdge_syncL hs, countOr, if_pos hc, endSync]
    split
    · exact .inr rfl
    · exact .inl rfl
  · exact .inr (.inr (.inl ⟨hs, by rw [tickEdge_bitH hs, countOr, if_pos hc, startSegment_st]⟩))
  · refine .inr (.inr (.inr ⟨hs, ?_⟩))
    rw [tickEdge_bitL hs, countOr, if_pos hc, endBit]
    split
    · exact .inr rfl
    · exact .inl rfl

/-- Settles O38: with ticks left the segment counts, and the tick after them is the one at `CNT = 0`. -/
theorem segmentCountsItsTicks : Obligations.SegmentCountsItsTicks := by
  intro s ps rest h hseg
  have ⟨hd, hidle⟩ := transmit_of_legal h.legal (List.mem_cons_of_mem _ hseg)
  have hb := h.busy hidle hd
  refine ⟨fun hr hn => runFor_counts hb hseg hr hn rest s.edges, fun hps => ?_⟩
  obtain ⟨hreach, -⟩ := shows_count hb hseg rfl s.cnt.toNat rfl
  refine ⟨_, hreach ps rest s.edges (by simpa [durationUs] using hps), rfl, ?_⟩
  exact tickEdge_last_st (s := { s with cnt := 0 }) hseg rfl

/-! ### A symbol -/

/-- The last tick period of the LOW part of a symbol. -/
def lowEnd (c : Ctl) (s : State) : State := { s with st := c, out := false, cnt := 0 }

/-- A symbol that starts shows a HIGH segment and then a LOW one, if its LOW part follows its HIGH part (R98-R100). -/
theorem shows_symbol {s : State} (h : Busy s) {c c' : Ctl} (hc : c ∈ [Ctl.syncH, .syncL, .bitH, .bitL])
    (hc' : c' ∈ [Ctl.syncH, .syncL, .bitH, .bitL]) {d d' : Nat} (hd : 0 < d ∧ d ≤ syncUs s.build)
    (hd' : 0 < d' ∧ d' ≤ syncUs s.build)
    (hnext : tickEdge { startSegment c true d s with cnt := 0 } = startSegment c' false d' s) :
    Shows [⟨true, d⟩, ⟨false, d'⟩] (startSegment c true d s) (tickEdge (lowEnd c' s)) := by
  have hmax : syncUs s.build ≤ delayMaxUs := ((buildLegal_iff _).mp h.build).2.1
  have hhigh := shows_segment hd.1 (hd.2.trans hmax) (h.startSegment hc _ _) hc hnext
  have hlow := shows_segment hd'.1 (hd'.2.trans hmax) (h.startSegment hc' false _) hc' rfl
  exact hhigh.append (by simpa [durationUs] using hd.1) (by simpa [durationUs] using hd'.1) hlow

theorem shows_sync {s : State} (h : Busy s) :
    Shows (wave s.build .sync) (startSync s) (endSync (lowEnd .syncL s)) := by
  obtain ⟨hshort, -⟩ := (buildLegal_iff _).mp h.build
  have hend : tickEdge (lowEnd .syncL s) = endSync (lowEnd .syncL s) := (tickEdge_syncL rfl).trans (if_pos rfl)
  have := shows_symbol h (c := .syncH) (c' := .syncL) (d := shortUs s.build) (d' := syncUs s.build) (by decide)
    (by decide) (by unfold shortUs syncUs; omega) (by unfold syncUs; omega) ((tickEdge_syncH rfl).trans (if_pos rfl))
  rwa [hend] at this

theorem bitHighUs_pos {b : Build} (hb : buildLegal b = true) (v : Bool) : 0 < bitHighUs b v := by
  obtain ⟨hshort, -⟩ := (buildLegal_iff _).mp hb
  unfold bitHighUs longUs shortUs
  split <;> omega

theorem bitLowUs_pos {b : Build} (hb : buildLegal b = true) (v : Bool) : 0 < bitLowUs b v := by
  obtain ⟨hshort, -⟩ := (buildLegal_iff _).mp hb
  unfold bitLowUs longUs shortUs
  split <;> omega

/-- A bit that starts shows the wave of its value (R99, R100). -/
theorem shows_bit {s : State} (h : Busy s) {i : BitVec 6} (hi : i.toNat ≤ 49) :
    Shows (wave s.build (bitSymbol (bitValue s.frame s.par i))) (startBit i s)
      (endBit (lowEnd .bitL (startBit i s))) := by
  have hbit := h.withBit hi (parNext s.frame s.par i) (bitValue s.frame s.par i)
  have hend : tickEdge (lowEnd .bitL (startBit i s)) = endBit (lowEnd .bitL (startBit i s)) :=
    (tickEdge_bitL rfl).trans (if_pos rfl)
  have hshows := shows_symbol hbit (c := .bitH) (c' := .bitL) (by decide) (by decide)
    ⟨bitHighUs_pos h.build (bitValue s.frame s.par i), bitHighUs_le_syncUs _ _⟩
    ⟨bitLowUs_pos h.build (bitValue s.frame s.par i), bitLowUs_le_syncUs _ _⟩ ((tickEdge_bitH rfl).trans (if_pos rfl))
  rw [wave_bitSymbol, ← hend]
  exact hshows

theorem durationUs_wave_pos {b : Build} (hb : buildLegal b = true) (y : Symbol) : 0 < durationUs (wave b y) := by
  obtain ⟨hshort, -⟩ := (buildLegal_iff _).mp hb
  cases y <;> simp [wave, durationUs, shortUs, longUs] <;> omega

theorem durationUs_wavesOf_pos {b : Build} (hb : buildLegal b = true) (y : Symbol) (ys : List Symbol) :
    0 < durationUs (wavesOf b (y :: ys)) := by
  rw [wavesOf_cons, durationUs_append]
  exact Nat.add_pos_left (durationUs_wave_pos hb y) _

/-- A symbol and then the symbols after it. -/
theorem Shows.cons {b : Build} (hb : buildLegal b = true) {x y : Symbol} {ys : List Symbol} {s s' s'' : State}
    (h : Shows (wave b x) s s') (h' : Shows (wavesOf b (y :: ys)) s' s'') : Shows (wavesOf b (x :: y :: ys)) s s'' := by
  rw [wavesOf_cons]
  exact h.append (durationUs_wave_pos hb x) (durationUs_wavesOf_pos hb y ys) h'

/-! ### A repetition -/

/-- A later state of the same send, with as many repetitions left to start. -/
structure SameSend (s s' : State) : Prop where
  busy : Busy s'
  build : s'.build = s.build
  frame : s'.frame = s.frame
  rr : s'.rr = s.rr

theorem SameSend.trans {s s' s'' : State} (h : SameSend s s') (h' : SameSend s' s'') : SameSend s s'' :=
  ⟨h'.busy, h'.build.trans h.build, h'.frame.trans h.frame, h'.rr.trans h.rr⟩

theorem sameSend_lowEnd {s : State} (h : Busy s) {c : Ctl} (hc : c ∈ [Ctl.syncH, .syncL, .bitH, .bitL]) :
    SameSend s (lowEnd c s) :=
  ⟨(h.startSegment hc false 0).withCnt 0, rfl, rfl, rfl⟩

theorem sameSend_lowEnd_bit {s : State} (h : Busy s) {i : BitVec 6} (hi : i.toNat ≤ 49) :
    SameSend s (lowEnd .bitL (startBit i s)) :=
  have hstart : SameSend s (startBit i s) := ⟨h.startBit hi, rfl, rfl, rfl⟩
  hstart.trans (sameSend_lowEnd hstart.busy (by decide))

/-- The accumulator holds the parity of the codeword bits above `i`; bit 49 asks nothing, for it starts from 0 (R91,
R96). -/
def ParityAbove (i : BitVec 6) (s : State) : Prop :=
  i.toNat ≠ 49 → s.par = parityDownTo (codeword s.frame) (i.toNat + 1)

theorem ParityAbove.bitValue {i : BitVec 6} {s : State} (h : ParityAbove i s) :
    bitValue s.frame s.par i = (codeword s.frame).getLsbD i.toNat :=
  bitValue_codeword _ _ _ fun h0 => by rw [h (by omega), h0, parityDownTo_one]

/-- A data bit started leaves the accumulator as the next bit needs it (R92). -/
theorem ParityAbove.next {i : BitVec 6} {s : State} (h : ParityAbove i s) (h0 : i ≠ 0) (hi : i.toNat ≤ 49) :
    ParityAbove (i - 1) (lowEnd .bitL (startBit i s)) := by
  have hpos : 1 ≤ i.toNat := Nat.one_le_iff_ne_zero.mpr (mt (bi_zero_iff _).mpr h0)
  intro _
  rw [toNat_pred _ h0, Nat.sub_add_cancel hpos]
  exact parNext_codeword _ _ _ hpos hi h

/-- A bit that starts shows the wave of the codeword's bit. -/
theorem shows_codeword_bit {s : State} (h : Busy s) {i : BitVec 6} (hi : i.toNat ≤ 49) (hpar : ParityAbove i s) :
    Shows (wave s.build (bitSymbol ((codeword s.frame).getLsbD i.toNat))) (startBit i s)
      (endBit (lowEnd .bitL (startBit i s))) :=
  hpar.bitValue ▸ shows_bit h hi

/-- From the start of bit `i` on, the line shows the codeword's bits from there down, and then a sync pulse starts (R87,
R94, R97). -/
theorem shows_bits {s : State} (h : Busy s) {n : Nat} {i : BitVec 6} (hin : i.toNat = n) (hi : i.toNat ≤ 49)
    (hpar : ParityAbove i s) :
    ∃ s', SameSend s s' ∧
      Shows (wavesOf s.build ((bitsDown (codeword s.frame) (n + 1)).map bitSymbol)) (startBit i s) (startSync s') := by
  induction n generalizing s i with
  | zero =>
    have hbit := shows_codeword_bit h hi hpar
    have hend : endBit (lowEnd .bitL (startBit i s)) = startSync (lowEnd .bitL (startBit i s)) :=
      if_pos ((bi_zero_iff i).mpr hin)
    rw [hend, hin] at hbit
    exact ⟨_, sameSend_lowEnd_bit h hi, by simpa [bitsDown, wavesOf] using hbit⟩
  | succ n ih =>
    have hbit := shows_codeword_bit h hi hpar
    have hlow := sameSend_lowEnd_bit h hi
    have h0 : i ≠ 0 := fun h0 => by have := (bi_zero_iff i).mp h0; omega
    have hpred : (i - 1).toNat = i.toNat - 1 := toNat_pred _ h0
    have hend : endBit (lowEnd .bitL (startBit i s)) = startBit (i - 1) (lowEnd .bitL (startBit i s)) := if_neg h0
    obtain ⟨s', hs', hrest⟩ := ih hlow.busy (i := i - 1) (by omega) (by omega) (hpar.next h0 hi)
    rw [hend, hin] at hbit
    exact ⟨s', hlow.trans hs', hbit.cons h.build hrest⟩

/-! ### A burst -/

/-- A burst of one repetition more begins with a sync pulse and the bits of the codeword (R87). -/
theorem burstSymbols_succ_front (cw : Codeword) (r : Nat) :
    burstSymbols cw (r + 1) = .sync :: ((lineBits cw).map bitSymbol ++ burstSymbols cw r) := by
  simp [burstSymbols, repetition, List.replicate_succ]

/-- From the start of a sync pulse on, with `r` repetitions left, the line shows a burst of `r` repetitions, and the block
is then in `IDLE` with `DONE` set (R95, R111). -/
theorem shows_burst {s : State} (h : Busy s) {r : Nat} (hr : s.rr.toNat = r) :
    ∃ u, Shows (wavesOf s.build (burstSymbols (codeword s.frame) r)) (startSync s) u ∧
      u.st = .idle ∧ u.done = true ∧ u.out = false := by
  induction r generalizing s with
  | zero =>
    have hsync := shows_sync h
    have hr0 : s.rr = 0 := BitVec.eq_of_toNat_eq hr
    have hend : endSync (lowEnd .syncL s) = { lowEnd .syncL s with st := .idle, done := true } := if_pos hr0
    rw [hend] at hsync
    exact ⟨_, by simpa [burstSymbols, wavesOf] using hsync, rfl, rfl, rfl⟩
  | succ r ih =>
    have hsync := shows_sync h
    have hr0 : s.rr ≠ 0 := fun h0 => by simp [h0] at hr
    have hend : endSync (lowEnd .syncL s) = startBit 49 { lowEnd .syncL s with rr := s.rr - 1 } := if_neg hr0
    have hb := (sameSend_lowEnd (c := .syncL) h (by decide)).busy.withRr (s.rr - 1)
    obtain ⟨s', hs', hbits⟩ := shows_bits hb (n := 49) (i := 49) rfl (by decide) (absurd rfl)
    have hr' : s'.rr.toNat = r := by
      rw [hs'.rr, toNat_pred _ hr0]
      omega
    obtain ⟨u, hburst, hu⟩ := ih hs'.busy hr'
    rw [hs'.build, hs'.frame] at hburst
    have hjoin := hbits.append (durationUs_wavesOf_pos h.build _ _) (durationUs_wavesOf_pos h.build _ _) hburst
    rw [hend] at hsync
    refine ⟨u, ?_, hu⟩
    rw [← wavesOf_append] at hjoin
    rw [burstSymbols_succ_front]
    exact hsync.cons h.build hjoin

/-! ### A send -/

/-- From `ARM` on, over edges that end at tick edge `T(r) + 1`, the line shows the burst and is LOW after it, and the send
has ended (R106, R113). -/
theorem line_from_arm {s : State} (h : Busy s) (hs : s.st = .arm) :
    ∃ u, (u.st = .idle ∧ u.done = true ∧ u.out = false) ∧
      ∀ ps rest e, endsAtTick (burstUs s.build s.rr.toNat + 1) ps →
        runFor ps.length (withEnv s (ps ++ rest) e) = .next (withEnv u rest (e + ps.length)) ∧
        lineTrace ps.length (withEnv s (ps ++ rest) e) =
          levels (wavesOf s.build (burstSymbols (codeword s.frame) s.rr.toNat)) ++ [false] := by
  obtain ⟨u, ⟨hreach, hline⟩, hend⟩ := shows_burst h rfl
  have hpos : 0 < burstUs s.build s.rr.toNat :=
    durationUs_burst _ (codeword s.frame) _ ▸ durationUs_wavesOf_pos h.build _ _
  obtain ⟨harm, harmLine⟩ := reaches_tick h
  rw [tickEdge_arm hs] at harm harmLine
  rw [durationUs_burst] at hreach hline
  refine ⟨u, hend, fun ps rest e hps => ?_⟩
  rw [Nat.add_comm] at hps
  obtain ⟨qs, rs, rfl, hq, hr⟩ := endsAtTick_split Nat.one_pos hpos hps
  have hfirst := harm qs (rs ++ rest) e hq
  have hrest := hline rs rest (e + qs.length) hr
  rw [hend.2.2] at hrest
  rw [List.append_assoc, List.length_append]
  constructor
  · rw [runFor_add hfirst, hreach rs rest _ hr, Nat.add_assoc]
  · rw [lineTrace_add hfirst, harmLine qs (rs ++ rest) e hq, ← hrest]
    rfl

/-- Everything the accepting edge of a send writes in a transmit build (40_send_commands.md R74, R85, R86). -/
theorem step_send_transmit {s : State} (h : edgeOpen s) (hs : s.st = .idle) (hd : s.build.diag = false) {p : Inputs}
    (hp : inputsAt s = p) (hv : p.cmdValid = true) (hw : (opcodeField p.cmdWord).toNat ≤ 5) :
    step s = .next { advance s with
      frame := frameOf (opcodeField p.cmdWord) s.house s.channel (dataField p.cmdWord)
      rr := s.rep
      done := false
      st := .arm } := by
  rw [step_idle_accept h hs (hp ▸ hv), hp, exec_decode_sendOpcode hw]
  exact whenReady_acceptSend_transmit (s := advance s) hs hd _ _

/-- Settles O46: the accepting edge leads to `ARM` with the send's frame and repeat count, and `line_from_arm` says the
rest. -/
theorem lineCarriesTheWaveform : Obligations.LineCarriesTheWaveform := by
  intro s p ps rest h hs hd hin hrst hv hw hps
  have hp : inputsAt s = p := inputsAt_of_cons hin
  have hstep := step_send_transmit ⟨h.build, h.legal, hp ▸ hrst⟩ hs hd hp hv hw
  have hadvance : advance s = withEnv s (ps ++ rest) (s.edges + 1) := by simp [advance, withEnv, hin]
  rw [hadvance] at hstep
  have hbusy := (stepKeepsInv s _ h hstep).busy nofun hd
  obtain ⟨u, ⟨hidle, hdone, hout⟩, hline⟩ := line_from_arm hbusy rfl
  obtain ⟨hrun, htrace⟩ := hline ps rest (s.edges + 1) hps
  exact ⟨_, withEnv u rest _, hstep, hrun, htrace, hidle, hdone, hout, rfl⟩

end Sys2Proof.Machine
end

section
/-!
PROOFS. The build is fixed (43_diagnostic_mode.md R116): no edge of either state machine, no command and no reset writes
it; a reset edge leaves the block just reset of the same build (70_reset_and_hazards.md R145, R146).
-/

namespace Sys2Proof.Machine

theorem countOr_build {s s' : State} (h : s'.build = s.build) : (countOr s s').build = s.build := by
  unfold countOr
  split
  · exact h
  · rfl

@[simp] theorem endSync_build (s : State) : (endSync s).build = s.build := by
  unfold endSync
  split <;> rfl

@[simp] theorem endBit_build (s : State) : (endBit s).build = s.build := by
  unfold endBit
  split <;> rfl

@[simp] theorem tickEdge_build (s : State) : (tickEdge s).build = s.build := by
  unfold tickEdge
  cases s.st with
  | idle | arm | dBit | dEol => rfl
  | syncH | bitH => exact countOr_build rfl
  | syncL => exact countOr_build (endSync_build s)
  | bitL => exact countOr_build (endBit_build s)

@[simp] theorem transferEdge_build (s : State) : (transferEdge s).build = s.build := by
  unfold transferEdge bitTransferred eolTransferred
  cases s.st with
  | dBit | dEol => dsimp only; split <;> rfl
  | idle | arm | syncH | syncL | bitH | bitL => rfl

@[simp] theorem runEdge_build (p : Inputs) (s : State) : (runEdge p s).build = s.build := by
  unfold runEdge diagEdge transmitEdge
  split <;> split <;> simp

theorem Taken.build_eq {s t : State} {i : Instr} (h : Taken s i t) : t.build = s.build := by
  cases h with
  | send tag p _ => exact acceptSend_build tag p s
  | setLine | setAddress | setRepeat | reserved => rfl

/-- Where the block is not ready no command writes anything (70_reset_and_hazards.md R153). -/
theorem exec_of_busy (i : Instr) {s : State} (hs : s.st ≠ .idle) : exec i s = .next s := by
  cases i <;> exact whenReady_busy hs _

/-- A command leaves the build, taken or not. -/
theorem exec_build {i : Instr} {s t : State} (h : exec i s = .next t) : t.build = s.build := by
  by_cases hs : s.st = .idle
  · exact (exec_taken hs h).build_eq
  · cases (exec_of_busy i hs).symm.trans h
    rfl

/-- Settles O24, along the three ways a step answers a next state. -/
theorem buildNeverChanges : Obligations.BuildNeverChanges := by
  refine ⟨fun s t h => ?_, fun i s t h => exec_build h⟩
  obtain ⟨-, ⟨-, rfl⟩ | ⟨-, -, -, -, he⟩ | ⟨-, -, -, rfl⟩⟩ := step_cases h
  · rfl
  · exact exec_build (s := advance s) he
  · exact runEdge_build _ _

/-- Settles O53: the reset edge is `State.resetOf` of what `advance` leaves of the build and the environment's part. -/
theorem resetEdgeKeepsBuildAndInputs : Obligations.ResetEdgeKeepsBuildAndInputs :=
  fun _ hb hr => step_reset hb hr

end Sys2Proof.Machine
end

section
/-!
PROOFS. The edges of the diagnostic build's state machine (43_diagnostic_mode.md R119-R125): the accepting edge of a send,
what the text port shows, a transfer in each of the two states of a text, and an edge without its pace.
-/

namespace Sys2Proof.Machine

/-! ### The accepting edge of a send -/

/-- Everything the accepting edge of a send writes in a diagnostic build (R118, R119; 41_codeword_framer.md R85). -/
theorem whenReady_acceptSend_diag {s : State} (hs : s.st = .idle) (hd : s.build.diag = true) (tag : Byte)
    (p : Payload) :
    whenReady s (acceptSend tag p s) =
      .next { s with
        frame := frameOf tag s.house s.channel p, rr := 1, bi := 49, par := false, eoli := 0, done := false
        st := .dBit } := by
  rw [whenReady_idle hs, acceptSend_diag hd, loadSend, effRepeat, hd]
  rfl

/-- Settles O16: every send is the one accepting edge, on the payload its operands make side by side. -/
theorem sendStartsTheText : Obligations.SendStartsTheText := by
  intro s hs hd started
  have hstarted : ∀ tag p, whenReady s (acceptSend tag p s) = .next (started tag p) :=
    whenReady_acceptSend_diag hs hd
  refine ⟨hstarted 0, hstarted 1, hstarted 2, fun a b => ?_, fun a b => ?_, fun a b c d => ?_⟩
  · rw [← packPair_append]
    exact hstarted 3 _
  · rw [← packPair_append]
    exact hstarted 4 _
  · rw [← packB05_append]
    exact hstarted 5 _

/-! ### The two states of a text -/

/-- The states of a text are those of a diagnostic build (10_state.md R32). -/
theorem diag_of_legal {s : State} (hl : s.legal = true) (hs : s.st ∈ [Ctl.dBit, .dEol]) :
    s.build.diag = true ∧ s.st ≠ .idle := by
  have hctl : ∀ (d : Bool), ∀ c ∈ [Ctl.dBit, .dEol], ctlLegal d c = true → d = true ∧ c ≠ .idle := by decide
  exact hctl _ _ hs (legal_ctl hl rfl)

/-- A busy diagnostic block is in one of the two states of a text. -/
theorem text_of_legal {s : State} (hl : s.legal = true) (hd : s.build.diag = true) (hs : s.st ≠ .idle) :
    s.st = .dBit ∨ s.st = .dEol := by
  have hctl := legal_ctl hl rfl
  rw [hd] at hctl
  cases hc : s.st with
  | dBit => exact .inl rfl
  | dEol => exact .inr rfl
  | idle => exact absurd hc hs
  | arm | syncH | syncL | bitH | bitL => simp [hc, ctlLegal] at hctl

/-- The text port is active in the two states of a text, and there alone (R120). -/
theorem diagValid_iff {s : State} (hd : s.build.diag = true) : diagValid s = true ↔ s.st = .dBit ∨ s.st = .dEol := by
  cases hs : s.st <;> simp [diagValid, hs, hd]

theorem transferEdge_dBit {s : State} (hs : s.st = .dBit) : transferEdge s = bitTransferred s := by
  simp only [transferEdge, hs]

theorem transferEdge_dEol {s : State} (hs : s.st = .dEol) : transferEdge s = eolTransferred s := by
  simp only [transferEdge, hs]

/-- An edge in a state of a text: a transfer where the sink is ready, and else nothing but that `DONE` is 0 (R121,
R122). -/
theorem step_text {s : State} (h : edgeOpen s) (hs : s.st ∈ [Ctl.dBit, .dEol]) :
    step s = .next (if (inputsAt s).diagReady = false then clearDone (advance s)
      else transferEdge (clearDone (advance s))) := by
  have ⟨_, hl, _⟩ := h
  obtain ⟨hd, hbusy⟩ := diag_of_legal hl hs
  rw [step_diag h hd hbusy, diagEdge]
  cases (inputsAt s).diagReady <;> rfl

/-! ### What the text port shows -/

theorem bitChar_toNat (b : Bool) : (bitChar b).toNat = 0x30 + b.toNat := by
  cases b <;> rfl

theorem bitValue_eq (f : Frame) (par : Bool) (i : BitVec 6) :
    bitValue f par i = if 1 ≤ i.toNat then f.getLsbD (i.toNat - 1) else par := by
  unfold bitValue
  by_cases h0 : i = 0
  · rw [if_pos h0, if_neg (by simp [h0])]
  · have hpos : i.toNat ≠ 0 := mt (bi_zero_iff i).mpr h0
    rw [if_neg h0, if_pos (by omega)]

theorem diagData_dBit {s : State} (hd : s.build.diag = true) (hs : s.st = .dBit) :
    diagData s = bitChar (bitValue s.frame s.par s.bi) := by
  simp [diagData, diagValid, hs, hd]

theorem diagData_dEol {s : State} (hd : s.build.diag = true) (hs : s.st = .dEol)
    (he : s.eoli < s.build.diagEol.length) : diagData s = s.build.diagEol[s.eoli] := by
  simp [diagData, diagValid, hs, hd, he]

/-- The character of bit `BI` is that of the codeword, the parity bit's among them (R120, R121). -/
theorem diagData_codeword {s : State} (h : BlockInv s) (hs : s.st = .dBit) :
    diagData s = bitChar ((codeword s.frame).getLsbD s.bi.toNat) := by
  obtain ⟨hd, -⟩ := diag_of_legal h.legal (by simp [hs])
  rw [diagData_dBit hd hs, bitValue_codeword]
  intro h0
  rw [h.asText hs, h0, parityDownTo_one]

/-- Settles O41: the port in each control state, of which an edge without a transfer writes nothing. -/
theorem textPortShowsTheBit : Obligations.TextPortShowsTheBit := by
  intro s hd
  refine ⟨fun hs => ⟨(diagValid_iff hd).mpr (.inl hs), ?_⟩,
    fun hs => ⟨(diagValid_iff hd).mpr (.inr hs), diagData_dEol hd hs⟩, fun hbit heol => ?_, fun h hv hready => ?_⟩
  · rw [diagData_dBit hd hs, bitChar_toNat, bitValue_eq]
  · have hv : diagValid s = false := Bool.eq_false_iff.mpr fun hv => ((diagValid_iff hd).mp hv).elim hbit heol
    exact ⟨hv, by simp [diagData, hv]⟩
  · have hstep := step_text h (by simpa using (diagValid_iff hd).mp hv)
    rw [if_pos hready] at hstep
    exact ⟨_, hstep, hv, rfl⟩

/-! ### A transfer -/

/-- The transfer of a character, the registers written out (R121; 41_codeword_framer.md R91, R92). -/
theorem bitTransferred_eq (s : State) :
    bitTransferred s =
      if s.bi.toNat = 0 then { s with st := .dEol, eoli := 0 }
      else { s with
        par := (if s.bi.toNat = 49 then false else s.par) ^^ s.frame.getLsbD (s.bi.toNat - 1)
        bi := BitVec.ofNat 6 (s.bi.toNat - 1) } := by
  unfold bitTransferred
  by_cases h0 : s.bi = 0
  · rw [if_pos h0, if_pos ((bi_zero_iff _).mp h0)]
  · have hpos : s.bi.toNat ≠ 0 := mt (bi_zero_iff _).mpr h0
    rw [if_neg h0, if_neg hpos, ofNat_pred _ h0]
    simp only [parNext, h0, if_false, parBase, bi_top_iff]

/-- The transfer of a byte of the line break, the last one told by its number (R122). -/
theorem eolTransferred_eq {s : State} (he : s.eoli < s.build.diagEol.length) :
    eolTransferred s =
      if s.eoli + 1 = s.build.diagEol.length then { s with st := .idle, done := true }
      else { s with eoli := s.eoli + 1 } := by
  have hlast : s.eoli = s.build.diagEol.length - 1 ↔ s.eoli + 1 = s.build.diagEol.length := by omega
  simp only [eolTransferred, hlast]

/-- Settles O42: the parity character is the codeword's bit 0, and a transfer is `bitTransferred`. -/
theorem textBitTransfer : Obligations.TextBitTransfer := by
  refine ⟨fun s h hs h0 => ?_, fun s h hs => ?_⟩
  · rw [diagData_codeword h hs, (bi_zero_iff _).mp h0]
  · rw [step_text h (by simp [hs]), transferEdge_dBit (s := clearDone (advance s)) hs, bitTransferred_eq]
    rfl

/-- Settles O43: a transfer is `eolTransferred`, `EOLI` being an index of the line break. -/
theorem textEolTransfer : Obligations.TextEolTransfer := by
  intro s h hs
  have ⟨_, hl, _⟩ := h
  obtain ⟨-, -, heol⟩ := (legal_iff s).mp hl
  rw [step_text h (by simp [hs]), transferEdge_dEol (s := clearDone (advance s)) hs,
    eolTransferred_eq (s := clearDone (advance s)) heol]
  rfl

/-! ### An edge without its pace -/

/-- A transfer reads and writes nothing of the environment's part. -/
theorem transferEdge_withEnv (s : State) (ps : List Inputs) (e : Nat) :
    transferEdge (withEnv s ps e) = withEnv (transferEdge s) ps e := by
  have hbit : bitTransferred (withEnv s ps e) = withEnv (bitTransferred s) ps e := by
    unfold bitTransferred
    by_cases h : s.bi = 0
    · rw [if_pos h, if_pos (show (withEnv s ps e).bi = 0 from h)]; rfl
    · rw [if_neg h, if_neg (show (withEnv s ps e).bi ≠ 0 from h)]; rfl
  have heol : eolTransferred (withEnv s ps e) = withEnv (eolTransferred s) ps e := by
    unfold eolTransferred
    by_cases h : s.eoli = s.build.diagEol.length - 1
    · rw [if_pos h, if_pos (show (withEnv s ps e).eoli = (withEnv s ps e).build.diagEol.length - 1 from h)]; rfl
    · rw [if_neg h, if_neg (show (withEnv s ps e).eoli ≠ (withEnv s ps e).build.diagEol.length - 1 from h)]; rfl
  cases hs : s.st with
  | dBit => rw [transferEdge_dBit hs, ← hbit]; exact transferEdge_dBit hs
  | dEol => rw [transferEdge_dEol hs, ← heol]; exact transferEdge_dEol hs
  | idle | arm | syncH | syncL | bitH | bitL => simp [transferEdge, withEnv, hs]

/-- `DONE` is 0 while a send runs, so clearing it changes nothing (10_state.md R37). -/
theorem clearDone_of_done {s : State} (h : s.done = false) : clearDone s = s := by
  rw [clearDone, ← h]

/-- An edge of a text changes the block by a transfer or not at all (R121, R122, R125). -/
theorem step_withEnv_text {s : State} (h : BlockInv s) (hd : s.build.diag = true) (hs : s.st ≠ .idle) {p : Inputs}
    (hp : p.rst = false) (ps : List Inputs) (e : Nat) :
    step (withEnv s (p :: ps) e) = .next (withEnv (if p.diagReady then transferEdge s else s) ps (e + 1)) := by
  have ho : edgeOpen (withEnv s (p :: ps) e) := ⟨h.build, (legal_congr rfl rfl rfl rfl).trans h.legal, hp⟩
  have hclear : clearDone (advance (withEnv s (p :: ps) e)) = withEnv s ps (e + 1) :=
    clearDone_of_done (h.notDone hs)
  have htext : s.st ∈ [Ctl.dBit, .dEol] := by simpa using text_of_legal h.legal hd hs
  rw [step_text ho htext, hclear, inputsAt_of_cons rfl, transferEdge_withEnv]
  cases p.diagReady <;> rfl

/-- While its pace is withheld, a running send changes nothing at an edge (R125; 60_exceptions.md R135). -/
theorem step_without_pace {s : State} (h : BlockInv s) (hs : s.st ≠ .idle) {p : Inputs} (hp : p.rst = false)
    (htick : s.build.diag = false → p.usTick = false) (hready : s.build.diag = true → p.diagReady = false)
    (ps : List Inputs) (e : Nat) : step (withEnv s (p :: ps) e) = .next (withEnv s ps (e + 1)) := by
  cases hd : s.build.diag with
  | false => rw [step_withEnv_busy (h.busy hs hd) ps e hp, htick hd]; rfl
  | true => rw [step_withEnv_text h hd hs hp, hready hd]; rfl

/-- Settles O39, by induction on the edges, each of which is `step_without_pace`. -/
theorem sendIsStuckWithoutItsPace : Obligations.SendIsStuckWithoutItsPace := by
  intro s ps rest h hs hr htick hready
  refine ⟨by simp [busy, hs], ?_⟩
  have hstuck : ∀ e, runFor ps.length (withEnv s (ps ++ rest) e) = .next (withEnv s rest (e + ps.length)) := by
    induction ps with
    | nil => exact fun _ => rfl
    | cons p ps ih =>
      rw [List.forall_mem_cons] at hr
      intro e
      have hstep := step_without_pace h hs hr.1 (fun hd => htick hd p List.mem_cons_self)
        (fun hd => hready hd p List.mem_cons_self) (ps ++ rest) e
      have hrest := ih hr.2 (fun hd q hq => htick hd q (List.mem_cons_of_mem _ hq))
        (fun hd q hq => hready hd q (List.mem_cons_of_mem _ hq)) (e + 1)
      rw [List.length_cons, List.cons_append, runFor_step hstep, hrest, Nat.add_right_comm, Nat.add_assoc]
  exact hstuck s.edges

end Sys2Proof.Machine
end

section
/-!
PROOFS. The text of a whole send (43_diagnostic_mode.md R124). `textLeft s` is the text still to come in state `s`: a
transfer takes its first byte and leaves the rest, it is empty only in `IDLE`, and at the accepting edge it is the whole
text of the send. So over edges with as many transfers as it has bytes, the sink takes it, and the send has ended.
-/

namespace Sys2Proof.Machine

/-! ### The text still to come -/

/-- The bytes a send under way has yet to transfer: the characters of codeword bits `BI` down to 0 and the line break, or
what is left of the line break. -/
def textLeft (s : State) : List Byte :=
  match s.st with
  | .dBit => (bitsDown (codeword s.frame) (s.bi.toNat + 1)).map bitChar ++ s.build.diagEol
  | .dEol => s.build.diagEol.drop s.eoli
  | .idle | .arm | .syncH | .syncL | .bitH | .bitL => []

theorem textLeft_dBit {s : State} (hs : s.st = .dBit) :
    textLeft s = (bitsDown (codeword s.frame) (s.bi.toNat + 1)).map bitChar ++ s.build.diagEol := by
  simp only [textLeft, hs]

theorem textLeft_dEol {s : State} (hs : s.st = .dEol) : textLeft s = s.build.diagEol.drop s.eoli := by
  simp only [textLeft, hs]

theorem textLeft_idle {s : State} (hs : s.st = .idle) : textLeft s = [] := by
  simp only [textLeft, hs]

/-- A character transferred leaves the characters below it, and after the parity character the line break (R121). -/
theorem textLeft_bitTransferred {s : State} (hs : s.st = .dBit) :
    textLeft (bitTransferred s) = (bitsDown (codeword s.frame) s.bi.toNat).map bitChar ++ s.build.diagEol := by
  unfold bitTransferred
  split
  · next h0 => rw [textLeft_dEol rfl, (bi_zero_iff _).mp h0]; rfl
  · next h0 =>
    have hpos : 1 ≤ s.bi.toNat := Nat.one_le_iff_ne_zero.mpr (mt (bi_zero_iff _).mpr h0)
    rw [textLeft_dBit (by exact hs), toNat_pred _ h0, Nat.sub_add_cancel hpos]

/-- A byte of the line break transferred leaves the bytes after it (R122). -/
theorem textLeft_eolTransferred {s : State} (hs : s.st = .dEol) (he : s.eoli < s.build.diagEol.length) :
    textLeft (eolTransferred s) = s.build.diagEol.drop (s.eoli + 1) := by
  rw [eolTransferred_eq he]
  split
  · next hlast => rw [textLeft_idle rfl, hlast, List.drop_length]
  · exact textLeft_dEol (by exact hs)

/-- A transfer takes the first byte of the text still to come, which is the byte shown, and leaves the rest. -/
theorem textLeft_transfer {s : State} (h : BlockInv s) (hd : s.build.diag = true) (hs : s.st ≠ .idle) :
    textLeft s = diagData s :: textLeft (transferEdge s) := by
  obtain hs | hs := text_of_legal h.legal hd hs
  · rw [textLeft_dBit hs, diagData_codeword h hs, transferEdge_dBit hs, textLeft_bitTransferred hs]
    rfl
  · obtain ⟨-, -, heol⟩ := (legal_iff s).mp h.legal
    rw [textLeft_dEol hs, diagData_dEol hd hs heol, transferEdge_dEol hs, textLeft_eolTransferred hs heol,
      List.drop_eq_getElem_cons heol]

/-- Nothing is left of a text only where no send runs. -/
theorem textLeft_eq_nil_iff {s : State} (h : BlockInv s) (hd : s.build.diag = true) :
    textLeft s = [] ↔ s.st = .idle := by
  refine ⟨fun hnil => ?_, textLeft_idle⟩
  by_contra hs
  simp [textLeft_transfer h hd hs] at hnil

/-- A transfer that ends a send raises `DONE` (R122). -/
theorem transferEdge_done_of_idle {s : State} (hs : s.st = .dBit ∨ s.st = .dEol) (hend : (transferEdge s).st = .idle) :
    (transferEdge s).done = true := by
  obtain hs | hs := hs
  · rw [transferEdge_dBit hs, bitTransferred] at hend
    split at hend <;> simp [hs] at hend
  · rw [transferEdge_dEol hs, eolTransferred] at hend ⊢
    split
    · rfl
    · next hmore => simp [hmore, hs] at hend

/-! ### Edges that end with a transfer -/

/-- The first of the edges: it is the last transfer, or an earlier one, or it is none. -/
theorem endsAtReady_cons {n : Nat} {p : Inputs} {ps : List Inputs} (h : endsAtReady n (p :: ps)) :
    p.rst = false ∧
      ((p.diagReady = true ∧ n = 1 ∧ ps = []) ∨
        (p.diagReady = true ∧ 0 < n - 1 ∧ endsAtReady (n - 1) ps) ∨
        (p.diagReady = false ∧ endsAtReady n ps)) := by
  obtain ⟨hr, hc, hl⟩ := h
  rw [List.forall_mem_cons] at hr
  rw [readyCount, List.countP_cons, ← readyCount] at hc
  refine ⟨hr.1, ?_⟩
  obtain rfl | ⟨q, hq⟩ : ps = [] ∨ ∃ q, ps.getLast? = some q := by
    cases hps : ps.getLast? with
    | none => exact .inl (List.getLast?_eq_none_iff.mp hps)
    | some q => exact .inr ⟨q, rfl⟩
  · have hp : p.diagReady = true := by simpa using hl
    exact .inl ⟨hp, by simpa [hp, readyCount] using hc.symm, rfl⟩
  · have hlast : ps.getLast?.map Inputs.diagReady = some true := by simpa [List.getLast?_cons, hq] using hl
    have hpos : 0 < readyCount ps :=
      List.countP_pos_iff.mpr ⟨q, List.mem_of_getLast? hq, by simpa [hq] using hlast⟩
    cases hp : p.diagReady with
    | true =>
      rw [hp, if_pos rfl] at hc
      exact .inr (.inl ⟨rfl, by omega, hr.2, by omega, hlast⟩)
    | false =>
      rw [hp, if_neg (by decide)] at hc
      exact .inr (.inr ⟨rfl, hr.2, hc, hlast⟩)

/-! ### A text -/

/-- What the sink takes at an edge of a text and over the edges after it (R117). -/
theorem textTrace_text {s : State} (h : BlockInv s) (hd : s.build.diag = true) (hs : s.st ≠ .idle) {p : Inputs}
    (hp : p.rst = false) (ps : List Inputs) (e n : Nat) :
    textTrace (n + 1) (withEnv s (p :: ps) e) =
      if p.diagReady then diagData s :: textTrace n (withEnv (transferEdge s) ps (e + 1))
      else textTrace n (withEnv s ps (e + 1)) := by
  have hv : diagValid (withEnv s (p :: ps) e) = true := (diagValid_iff hd).mpr (text_of_legal h.legal hd hs)
  have htransfer : transferring (withEnv s (p :: ps) e) = p.diagReady := by
    rw [transferring, hv, inputsAt_of_cons rfl, hp]
    rfl
  simp only [textTrace, step_withEnv_text h hd hs hp, htransfer]
  cases p.diagReady <;> rfl

/-- A send under way, over edges that end at the transfer of its last byte: the sink takes the text still to come, and the
send has ended. -/
theorem text_run {s : State} (h : BlockInv s) (hd : s.build.diag = true) (hs : s.st ≠ .idle) {ps : List Inputs}
    (hps : endsAtReady (textLeft s).length ps) (rest : List Inputs) (e : Nat) :
    ∃ u, u.st = .idle ∧ u.done = true ∧
      runFor ps.length (withEnv s (ps ++ rest) e) = .next (withEnv u rest (e + ps.length)) ∧
      textTrace ps.length (withEnv s (ps ++ rest) e) = textLeft s := by
  induction ps generalizing s e with
  | nil =>
    obtain ⟨-, -, hlast⟩ := hps
    cases hlast
  | cons p ps ih =>
    obtain ⟨hp, hcases⟩ := endsAtReady_cons hps
    have hstep := step_withEnv_text h hd hs hp (ps ++ rest) e
    have htrace := textTrace_text h hd hs hp (ps ++ rest) e ps.length
    have hleft := textLeft_transfer h hd hs
    have hinv := blockInv_transferEdge h
    have hd' : (transferEdge s).build.diag = true := by rwa [transferEdge_build]
    have hlen : (textLeft s).length - 1 = (textLeft (transferEdge s)).length := by
      rw [hleft, List.length_cons, Nat.add_sub_cancel]
    rw [List.length_cons, List.cons_append, runFor_step hstep, htrace, Nat.add_comm ps.length 1, ← Nat.add_assoc]
    obtain ⟨hready, hone, rfl⟩ | ⟨hready, hmore, hps'⟩ | ⟨hready, hps'⟩ := hcases
    · have hnil : textLeft (transferEdge s) = [] := List.length_eq_zero_iff.mp (by omega)
      have hidle := (textLeft_eq_nil_iff hinv hd').mp hnil
      rw [if_pos hready, if_pos hready, hleft, hnil]
      exact ⟨_, hidle, transferEdge_done_of_idle (text_of_legal h.legal hd hs) hidle, rfl, rfl⟩
    · rw [hlen] at hmore hps'
      have hbusy : (transferEdge s).st ≠ .idle := fun hidle => by simp [textLeft_idle hidle] at hmore
      obtain ⟨u, hidle, hdone, hrun, htext⟩ := ih hinv hd' hbusy hps' (e + 1)
      rw [if_pos hready, if_pos hready, hleft, htext]
      exact ⟨u, hidle, hdone, hrun, rfl⟩
    · rw [if_neg (by simp [hready]), if_neg (by simp [hready])]
      exact ih h hd hs hps' (e + 1)

/-! ### A send -/

/-- The accepting edge of a send, in either build, for every word of a send's opcode (40_send_commands.md R74). -/
theorem step_send {s : State} (h : edgeOpen s) (hs : s.st = .idle) {p : Inputs} (hp : inputsAt s = p)
    (hv : p.cmdValid = true) (hw : (opcodeField p.cmdWord).toNat ≤ 5) :
    step s = .next (acceptSend (opcodeField p.cmdWord) (dataField p.cmdWord) (advance s)) := by
  rw [step_idle_accept h hs (hp ▸ hv), hp, exec_decode_sendOpcode hw, whenReady_idle (s := advance s) hs]

@[simp] theorem acceptSend_inputs (tag : Byte) (p : Payload) (s : State) :
    (acceptSend tag p s).inputs = s.inputs := by
  unfold acceptSend; split <;> rfl

/-- At the accepting edge the whole text of the send is still to come (R119, R124). -/
theorem textLeft_acceptSend {s : State} (hd : s.build.diag = true) (tag : Byte) (p : Payload) :
    textLeft (acceptSend tag p s) = diagText s.build (sendCodeword tag p s.house s.channel) := by
  rw [acceptSend_diag hd]
  exact textLeft_dBit rfl

/-- A state is itself in its own environment. -/
theorem withEnv_self {s : State} {ps : List Inputs} (h : s.inputs = ps) : withEnv s ps s.edges = s := by
  rw [withEnv, ← h]

theorem length_diagText (b : Build) (cw : Codeword) : (diagText b cw).length = 50 + b.diagEol.length := by
  simp [diagText, lineBits]

/-- Settles O45: after the accepting edge the whole text of the send is still to come, and `text_run` says the rest. -/
theorem textOfADiagnosticSend : Obligations.TextOfADiagnosticSend := by
  refine ⟨fun s p ps rest h hs hd hin hrst hv hw hps => ?_, by decide⟩
  have hp : inputsAt s = p := inputsAt_of_cons hin
  have hstep := step_send ⟨h.build, h.legal, hp ▸ hrst⟩ hs hp hv hw
  have hinv := stepKeepsInv s _ h hstep
  have hleft := textLeft_acceptSend (s := advance s) hd (opcodeField p.cmdWord) (dataField p.cmdWord)
  have henv := acceptSend_inputs (opcodeField p.cmdWord) (dataField p.cmdWord) (advance s)
  have hbuild := acceptSend_build (opcodeField p.cmdWord) (dataField p.cmdWord) (advance s)
  generalize acceptSend (opcodeField p.cmdWord) (dataField p.cmdWord) (advance s) = t at hstep hinv hleft henv hbuild
  rw [advance_inputs, hin, List.tail_cons] at henv
  have hlen : (textLeft t).length = 50 + s.build.diagEol.length := by rw [hleft, length_diagText]; rfl
  have hbusy : t.st ≠ .idle := fun hidle => by simp [textLeft_idle hidle] at hlen; omega
  obtain ⟨u, hidle, hdone, hrun, htext⟩ :=
    text_run hinv (by rwa [hbuild]) hbusy (hlen ▸ hps) rest t.edges
  rw [withEnv_self henv] at hrun htext
  exact ⟨t, withEnv u rest _, hstep, hrun, htext.trans hleft, hidle, hdone, rfl⟩

end Sys2Proof.Machine
end

section
/-!
PROOFS. The configuration and reserved commands (44_config_commands.md R127-R131): each completes where the block is ready
and writes its own register alone, the address and the repeat count being those of the next send.
-/

namespace Sys2Proof.Machine

/-! ### What each command writes -/

theorem exec_setRepeat_idle {s : State} (hs : s.st = .idle) (n : Byte) :
    exec (.setRepeat n) s = .next { clearDone s with rep := n } :=
  whenReady_idle hs _

theorem exec_reserved_idle {s : State} (hs : s.st = .idle) (op : Byte) : exec (.reserved op) s = .next (clearDone s) :=
  whenReady_idle hs _

/-- An operand's low bits are the operand truncated to the register's width (R127). -/
theorem houseBits_eq_ofNat (h : Byte) : houseBits h = BitVec.ofNat 2 h.toNat := rfl

theorem channelBits_eq_ofNat (c : Byte) : channelBits c = BitVec.ofNat 3 c.toNat := rfl

/-- Settles O18: each command is one write in `IDLE`, an address operand's low bits being its truncation. -/
theorem configurationWritesOnlyItsRegister : Obligations.ConfigurationWritesOnlyItsRegister := by
  refine fun s hs => ⟨exec_setLine_idle hs, fun h c => ?_, exec_setRepeat_idle hs, exec_reserved_idle hs⟩
  rw [exec_setAddress_idle hs, houseBits_eq_ofNat, channelBits_eq_ofNat]
  rfl

/-- Settles O21: the two ranges are the reserved opcodes, and such a word decodes to `RESERVED`, whatever its data. -/
theorem reservedCommandsDoNothing : Obligations.ReservedCommandsDoNothing := by
  intro s op data hs hop
  have hword : opcodeField (op ++ data) = op := opcodeField_cmdOf op data
  have hreserved : reservedOpcode op = true := by
    simp only [reservedOpcode, Bool.or_eq_true, Bool.and_eq_true, decide_eq_true_eq]
    omega
  rw [decode_reserved (hword.symm ▸ hreserved)]
  exact exec_reserved_idle hs _

/-! ### The next send -/

/-- The house and the channel stand side by side in a send's codeword, in bits 37 to 33 (30_encoding.md R57). -/
theorem codeword_frameOf_address (t : Byte) (h : BitVec 2) (c : BitVec 3) (p : Payload) :
    (codeword (frameOf t h c p)).extractLsb' 33 5 = h ++ c := by
  rw [codeword, BitVec.extractLsb'_append_eq_of_le (by omega), frameOf, BitVec.extractLsb'_append_eq_of_le (by omega),
    BitVec.append_assoc]
  exact BitVec.extractLsb'_append_eq_right

/-- A `SET_ADDRESS` word decodes to its two operands, whatever its bits 31:16 (R129; 30_encoding.md R63). -/
theorem decode_setAddress_word (x : Half) (h c : Byte) : decode (0x81#8 ++ x ++ h ++ c) = .setAddress h c := by
  have hword : 0x81#8 ++ x ++ h ++ c = cmdOf 0x81#8 (x ++ h ++ c) := by
    simp only [cmdOf, BitVec.append_assoc, BitVec.cast_eq]
  have hchannel : dataByte (cmdOf 0x81#8 (x ++ h ++ c)) 0 = c := dataByte_zero_cmdOf _ (x ++ h) c
  rw [hword, decode_setAddress (opcodeField_cmdOf 0x81#8 _), dataByte_one_cmdOf, hchannel]

/-- Settles O19: the registers take the operands' low bits, which the next send puts in its codeword. -/
theorem setAddressTruncates : Obligations.SetAddressTruncates := by
  intro s hs
  refine ⟨fun h c => ⟨_, exec_setAddress_idle hs h c, houseBits_toNat h, channelBits_toNat c, rfl⟩,
    decode_setAddress_word, exec_setAddress_idle hs 6 13, exec_setAddress_idle hs 255 255, fun w hw => ?_⟩
  refine ⟨_, _, exec_setAddress_idle hs 2 5, rfl, rfl,
    (exec_decode_sendOpcode hw _).trans (whenReady_idle (by exact hs) _), ?_⟩
  rw [acceptSend_frame, codeword_frameOf_address]
  exact (by decide : houseBits 2 ++ channelBits 5 = 0b10101#5)

/-- A send loads `RR` with the effective repeat count (41_codeword_framer.md R86; 43_diagnostic_mode.md R118). -/
@[simp] theorem acceptSend_rr (tag : Byte) (p : Payload) (s : State) : (acceptSend tag p s).rr = effRepeat s := by
  unfold acceptSend; split <;> rfl

/-- Settles O20: the send that follows loads the effective repeat count of the state `SET_REPEAT` leaves. -/
theorem setRepeatRulesTheNextSend : Obligations.SetRepeatRulesTheNextSend := by
  intro s n w hs hw
  refine ⟨_, _, exec_setRepeat_idle hs n, rfl, rfl, hs,
    (exec_decode_sendOpcode hw _).trans (whenReady_idle (by exact hs) _), acceptSend_rep _ _ _, ?_⟩
  rw [acceptSend_rr]
  rfl

end Sys2Proof.Machine
end

section
/-!
PROOFS. The block raises no exception (60_exceptions.md R133): every edge of a legal state answers a next state,
whatever the inputs, and that state is legal again. Legality reads `ST`, `BI`, `EOLI` and the build alone, so the other
working registers, which the invariant bounds, may hold anything here. A tick of a send starts or counts a segment of a
`Busy` block, a transfer moves on in the text, and a command taken starts a send or stays in `IDLE`.
-/

namespace Sys2Proof.Machine

/-- A line break that is not refused has a first byte (00_scope.md R9; 43_diagnostic_mode.md R122). -/
theorem eol_length_pos {b : Build} (hb : buildLegal b = true) : 0 < b.diagEol.length :=
  List.length_pos_iff.mpr ((buildLegal_iff b).mp hb).2.2

/-- `IDLE` is a state of either build (10_state.md R32), so a send that ends leaves a legal state. -/
theorem sendEnds_legal {s : State} (h : s.legal = true) :
    ({ s with st := .idle, done := true } : State).legal = true :=
  (legal_iff _).mpr ⟨rfl, ((legal_iff s).mp h).2⟩

/-! ### The transmit build -/

/-- A segment's tick edge leaves a legal state, if what follows the segment is one (42_pulse_serializer.md R104). -/
theorem countOr_legal {s s' : State} (h : s.legal = true) (h' : s'.legal = true) : (countOr s s').legal = true := by
  unfold countOr
  split
  · exact h'
  · exact (legal_congr rfl rfl rfl rfl).trans h

theorem Busy.endSync_legal {s : State} (h : Busy s) : (endSync s).legal = true := by
  unfold endSync
  split
  · exact sendEnds_legal h.legal
  · exact ((h.withRr _).startBit (by decide)).legal

theorem Busy.endBit_legal {s : State} (h : Busy s) : (endBit s).legal = true := by
  obtain ⟨-, hbi, -⟩ := (legal_iff s).mp h.legal
  unfold endBit
  split
  · exact h.startSync.legal
  · next h0 => exact (h.startBit (by rw [toNat_pred _ h0]; omega)).legal

/-- Every tick edge of a send in a transmit build (R106-R110). -/
theorem Busy.tickEdge_legal {s : State} (h : Busy s) : (tickEdge s).legal = true := by
  unfold tickEdge
  cases s.st with
  | idle | dBit | dEol => exact h.legal
  | arm => exact h.startSync.legal
  | syncH => exact countOr_legal h.legal (h.startSegment (by decide) _ _).legal
  | syncL => exact countOr_legal h.legal h.endSync_legal
  | bitH => exact countOr_legal h.legal (h.startSegment (by decide) _ _).legal
  | bitL => exact countOr_legal h.legal h.endBit_legal

/-! ### The diagnostic build -/

/-- A byte of the codeword transferred (43_diagnostic_mode.md R121). -/
theorem bitTransferred_legal {s : State} (hb : buildLegal s.build = true) (h : s.legal = true) (hs : s.st = .dBit) :
    (bitTransferred s).legal = true := by
  obtain ⟨hctl, hbi, heol⟩ := (legal_iff s).mp h
  unfold bitTransferred
  split
  · exact (legal_iff _).mpr ⟨(diag_of_legal h (by simp [hs])).1, hbi, eol_length_pos hb⟩
  · next h0 => exact (legal_iff _).mpr ⟨hctl, by rw [toNat_pred _ h0]; omega, heol⟩

/-- A byte of the line break transferred (R122). -/
theorem eolTransferred_legal {s : State} (h : s.legal = true) : (eolTransferred s).legal = true := by
  obtain ⟨hctl, hbi, heol⟩ := (legal_iff s).mp h
  unfold eolTransferred
  split
  · exact sendEnds_legal h
  · next hlast =>
    have hlt : s.eoli + 1 < s.build.diagEol.length := by omega
    exact (legal_iff _).mpr ⟨hctl, hbi, hlt⟩

/-- Every transfer (R121, R122). -/
theorem transferEdge_legal {s : State} (hb : buildLegal s.build = true) (h : s.legal = true) :
    (transferEdge s).legal = true := by
  unfold transferEdge
  cases hs : s.st with
  | dBit => exact bitTransferred_legal hb h hs
  | dEol => exact eolTransferred_legal h
  | idle | arm | syncH | syncL | bitH | bitL => exact h

/-! ### The step -/

theorem clearDone_legal {s : State} (h : s.legal = true) : (clearDone s).legal = true :=
  (legal_congr rfl rfl rfl rfl).trans h

theorem advance_legal {s : State} (h : s.legal = true) : (advance s).legal = true :=
  (legal_congr rfl rfl rfl rfl).trans h

/-- A tick edge of a transmit build, `DONE` having fallen: in `IDLE` ticks are ignored (42_pulse_serializer.md R105). -/
theorem tickEdge_clearDone_legal {s : State} (hb : buildLegal s.build = true) (h : s.legal = true)
    (hd : s.build.diag = false) : (tickEdge (clearDone s)).legal = true := by
  have hcleared := clearDone_legal h
  by_cases hs : s.st = .idle
  · simpa [tickEdge, hs] using hcleared
  · have hbusy : Busy (clearDone s) := ⟨hb, hcleared, hd, hs, rfl⟩
    exact hbusy.tickEdge_legal

/-- The block's own edge in either build. -/
theorem runEdge_legal {s : State} (hb : buildLegal s.build = true) (h : s.legal = true) (p : Inputs) :
    (runEdge p s).legal = true := by
  cases hd : s.build.diag with
  | false =>
    rw [runEdge_transmit hd, transmitEdge]
    split
    · exact tickEdge_clearDone_legal hb h hd
    · exact clearDone_legal h
  | true =>
    rw [runEdge_diag hd, diagEdge]
    split
    · exact transferEdge_legal hb (clearDone_legal h)
    · exact clearDone_legal h

/-- A send accepted in a legal state goes to the first control state of its build; a diagnostic build presents bit 49
and starts at the line break's first byte (40_send_commands.md R74; 43_diagnostic_mode.md R119). -/
theorem acceptSend_legal_of_legal {s : State} (hb : buildLegal s.build = true) (h : s.legal = true) (tag : Byte)
    (p : Payload) : (acceptSend tag p s).legal = true := by
  cases hd : s.build.diag with
  | false =>
    rw [acceptSend_transmit hd]
    exact (legal_iff _).mpr ⟨by simp [hd, ctlLegal], ((legal_iff s).mp h).2⟩
  | true =>
    rw [acceptSend_diag hd]
    exact (legal_iff _).mpr ⟨by simp [hd, ctlLegal], by simp, eol_length_pos hb⟩

/-- Every command taken: wide operands are truncated and reserved opcodes ignored (60_exceptions.md R134). -/
theorem Taken.legal {s t : State} {i : Instr} (ht : Taken s i t) (hb : buildLegal s.build = true)
    (h : s.legal = true) : t.legal = true := by
  cases ht with
  | send tag p _ => exact acceptSend_legal_of_legal hb h tag p
  | setLine | setAddress | setRepeat | reserved => exact (legal_congr rfl rfl rfl rfl).trans h

theorem resetEdge_legal {s : State} (hb : buildLegal s.build = true) : (resetEdge s).legal = true :=
  (blockInv_resetOf hb s.inputs s.edges).legal

/-- A step from a legal state answers a legal state. -/
theorem step_legal {s t : State} (h : s.legal = true) (hst : step s = .next t) : t.legal = true := by
  obtain ⟨hb, ⟨-, rfl⟩ | ⟨-, -, hs, -, he⟩ | ⟨-, -, -, rfl⟩⟩ := step_cases hst
  · exact resetEdge_legal (s := advance s) hb
  · exact (exec_taken (s := advance s) hs he).legal hb (advance_legal h)
  · exact runEdge_legal (s := advance s) hb (advance_legal h) _

/-- A step from a legal state is neither refused nor faults: a reset, the block's own edge and every command answer a
next state (R133). -/
theorem step_answers {s : State} (hb : buildLegal s.build = true) (h : s.legal = true) : ∃ t, step s = .next t := by
  cases hr : (inputsAt s).rst with
  | true => exact ⟨_, step_reset hb hr⟩
  | false =>
    have hopen : edgeOpen s := ⟨hb, h, hr⟩
    cases ha : accepting (inputsAt s) s with
    | false => exact ⟨_, step_run hopen ha⟩
    | true =>
      have ⟨_, hready⟩ : (inputsAt s).cmdValid = true ∧ cmdReady s = true := by simpa [accepting] using ha
      obtain ⟨t, he, -⟩ := exec_idle (decode (inputsAt s).cmdWord) (s := advance s) ((cmdReady_iff s).mp hready)
      exact ⟨t, (step_accept hopen ha).trans he⟩

/-- Settles O50: the step answers by `step_answers`, and its answer is legal by `step_legal`. -/
theorem blockNeverFaults : Obligations.BlockNeverFaults := by
  intro s hb h
  obtain ⟨t, hst⟩ := step_answers hb h
  exact ⟨t, hst, step_legal h hst⟩

end Sys2Proof.Machine
end

section
/-!
PROOFS. Reset and the elaboration (70_reset_and_hazards.md R145-R149, R155): a reset edge gives every register and every
output its reset value, the block takes a command at the very next edge, and no duration of a block that can be built
exceeds the ceiling.
-/

namespace Sys2Proof.Machine

/-! ### The reset edge -/

/-- A block in `IDLE` is not busy and presents no text byte (10_state.md R21; 43_diagnostic_mode.md R120). -/
theorem busy_idle {s : State} (hs : s.st = .idle) : busy s = false := by
  simp [busy, hs]

theorem diagValid_idle {s : State} (hs : s.st = .idle) : diagValid s = false := by
  simp [diagValid, hs]

theorem diagData_of_not_valid {s : State} (hv : diagValid s = false) : diagData s = 0 := by
  simp [diagData, hv]

/-- Settles O9: the step is the reset edge, and the outputs are read off its registers, `ST = IDLE` among them. -/
theorem resetEdgeRestoresDefaults : Obligations.ResetEdgeRestoresDefaults := by
  intro s hb hr
  have hidle := resetEdge_st (advance s)
  have hvalid := diagValid_idle hidle
  exact ⟨resetEdge (advance s), step_reset hb hr,
    ⟨rfl, rfl, rfl, rfl, hidle, rfl, rfl, rfl, rfl, rfl, rfl, rfl, rfl, fun _ => rfl⟩,
    ⟨rfl, rfl, (cmdReady_iff _).mpr hidle, busy_idle hidle, rfl, rfl, rfl, rfl, hvalid, diagData_of_not_valid hvalid⟩⟩

/-! ### The first edge after a reset -/

/-- The only answer of a step at an edge with `rst = 1` is the reset edge, in a block that can be built. -/
theorem step_reset_cases {s t : State} (hr : (inputsAt s).rst = true) (h : step s = .next t) :
    buildLegal s.build = true ∧ t = resetEdge (advance s) := by
  obtain ⟨hb, -⟩ := step_cases h
  cases (step_reset hb hr).symm.trans h
  exact ⟨hb, rfl⟩

/-- Settles O10: the block just reset is legal and in `IDLE`, so the next edge without reset accepts, and a command taken
in `IDLE` completes by `exec_idle`. -/
theorem firstEdgeAfterResetAccepts : Obligations.FirstEdgeAfterResetAccepts := by
  intro s t hr hst
  obtain ⟨hb, rfl⟩ := step_reset_cases hr hst
  have hidle := resetEdge_st (advance s)
  refine ⟨hidle, (cmdReady_iff _).mpr hidle, fun hr' hv => ?_⟩
  have hopen : edgeOpen (resetEdge (advance s)) := ⟨hb, resetEdge_legal (s := advance s) hb, hr'⟩
  obtain ⟨u, hu, -⟩ := exec_idle (decode (inputsAt (resetEdge (advance s))).cmdWord)
    (s := advance (resetEdge (advance s))) hidle
  exact ⟨u, (step_idle_accept hopen hidle hv).trans hu, hu⟩

/-! ### The elaboration -/

/-- A block that cannot be built is refused at every edge, a reset edge among them (R155). -/
theorem step_refused {s : State} (hb : buildLegal s.build = false) : step s = .refused .elaborationRefused := by
  simp [step, hb]

/-- The greatest `SHORT_US` whose `SYNC_US` is within the ceiling is 528 (R155). -/
theorem syncUs_le_delayMaxUs_iff (b : Build) : syncUs b ≤ delayMaxUs ↔ b.shortUs ≤ 528 := by
  unfold syncUs delayMaxUs
  omega

theorem buildLegal_iff_shortUs (b : Build) :
    buildLegal b = true ↔ 1 ≤ b.shortUs ∧ b.shortUs ≤ 528 ∧ b.diagEol ≠ [] := by
  rw [buildLegal_iff, ← syncUs_le_delayMaxUs_iff, syncUs]

/-- Settles O25: `SYNC_US`, the longest of the three durations, is within the ceiling exactly up to `SHORT_US = 528`. -/
theorem durationCeiling : Obligations.DurationCeiling := by
  refine ⟨fun b hb => ?_, fun b hlo hhi heol => (buildLegal_iff_shortUs b).mpr ⟨hlo, hhi, heol⟩, fun s hs => ?_⟩
  · obtain ⟨-, hhi, -⟩ := (buildLegal_iff_shortUs b).mp hb
    unfold shortUs longUs syncUs
    omega
  · refine step_refused (Bool.eq_false_iff.mpr fun hb => ?_)
    obtain ⟨-, hhi, -⟩ := (buildLegal_iff_shortUs _).mp hb
    omega

end Sys2Proof.Machine
end

section
/-!
PROOFS. A command presented while the block is busy is not accepted: no register is written (20_memory.md R52;
70_reset_and_hazards.md R153).
-/

namespace Sys2Proof.Machine

/-- Settles O13: every command goes through `whenReady`, which outside `IDLE` answers the state it is given; that is
`exec_of_busy`. -/
theorem commandWaitsWhileBusy : Obligations.CommandWaitsWhileBusy :=
  fun i _ hs => exec_of_busy i hs

end Sys2Proof.Machine
end
